-- ==== Sys2Proof/Word.lean ====
section
/-! DEFINITION. The word types of the SSL-1 engine, and the one operand a command word carries. -/

namespace Sys2Proof

/-- A 32-bit value: a register, a host address, the data of the host port, a command word (R8, R90). -/
abbrev Word := BitVec 32

/-- One byte of a buffer (R9, R52). -/
abbrev Byte := BitVec 8

/-- Field SRC of an extract command: the buffer it scans, CBUF for 0 and OBUF for 1 (R94). -/
inductive Src where
  | cbuf
  | obuf
deriving DecidableEq, Repr

end Sys2Proof
end

