-- ==== Sys2Proof/Syntax.lean ====
section
/-! DEFINITION. The commands of the SSL-1 engine: one constructor per row of spec/opcode_table.json (R92). -/

namespace Sys2Proof

/-- A command. Only the extract commands carry an operand, SRC (R90, R94); every other operand is read from a
parameter register when the command runs (R91). -/
inductive Instr where
  /-- 0x01: frame the message of MBUF into BBUF (R116). -/
  | frameEncode
  /-- 0x02: deframe the bit sequence of BBUF into TBUF (R118). -/
  | frameDecode
  /-- 0x03: capacity of an image carrier (R131). -/
  | imgCapacity
  /-- 0x04: capacity of an audio carrier (R132). -/
  | audCapacity
  /-- 0x05: does the message fit the image carrier (R133). -/
  | imgValidate
  /-- 0x06: does the message fit the audio carrier (R134). -/
  | audValidate
  /-- 0x07: embed the message in the image carrier (R151). -/
  | imgEmbed
  /-- 0x08: recover a message from an image carrier (R156). -/
  | imgExtract (src : Src)
  /-- 0x09: embed the message in the audio carrier (R171). -/
  | audEmbed
  /-- 0x0A: recover a message from an audio carrier (R176). -/
  | audExtract (src : Src)
deriving DecidableEq, Repr

end Sys2Proof
end

