-- ==== Sys2Proof/Config.lean ====
section
/-! DEFINITION. What an implementation fixes (R7) and the values the spec leaves free (R53, R74). -/

namespace Sys2Proof

/-- The buffer sizes in bytes: the OPEN parameters of R7 and D4. T_CMD, the fifth parameter, counts time and
is not modelled (log 12). Which sizes describe an SSL-1 part is `Config.wf`. -/
structure Config where
  /-- N_CBUF: the size of CBUF and of OBUF. -/
  nCbuf : Nat
  /-- N_MBUF: the size of MBUF. -/
  nMbuf : Nat
  /-- N_BBUF: the size of BBUF. -/
  nBbuf : Nat
  /-- N_TBUF: the size of TBUF. -/
  nTbuf : Nat
deriving DecidableEq, Repr

/-- FREE VALUE (R53, R222, U1; log 2): what a buffer byte that nothing has written since the reset numbered
`epoch` holds, by the host address of the byte. Nothing constrains it. -/
opaque Config.freeByte (epoch address : Nat) : Byte

/-- FREE VALUE (R74, U2; log 3): the data of the free read numbered `draw`, a host read of an output location
while a command runs. Nothing constrains it, and each such read has a number of its own. -/
opaque Config.freeRead (draw : Nat) : Word

/-- Configuration K1 of 95_test_vectors.md, "used by every vector and program unless stated".
DESIGN CHOICE (log 1): the sizes of `State.reset`. -/
def Config.k1 : Config := { nCbuf := 512, nMbuf := 64, nBbuf := 64, nTbuf := 64 }

end Sys2Proof
end

