-- ==== Sys2Proof/WellFormed.lean ====
section
/-! DEFINITION. Which terms describe something the spec has: the configurations of R7 and the commands of R92. -/

namespace Sys2Proof

/-- The constraints of R7: a configuration that breaks one "describes no SSL-1 part". Each buffer fits its 2^24
byte window, BBUF holds at least the terminator, and TBUF holds every extraction. -/
def Config.wf (c : Config) : Bool :=
  decide (1 ≤ c.nCbuf) && decide (c.nCbuf ≤ 2 ^ 24)
    && decide (1 ≤ c.nMbuf) && decide (c.nMbuf ≤ 2 ^ 24)
    && decide (2 ≤ c.nBbuf) && decide (c.nBbuf ≤ 2 ^ 24)
    && decide (max c.nBbuf (c.nCbuf / 8) ≤ c.nTbuf) && decide (c.nTbuf ≤ 2 ^ 24)

/-- A command is well-formed by its constructors: SRC exists only on the two extract commands and has exactly the
two values R94 gives it, so no ill-formed command can be written down. The words that are no command are refused
by the decoder (R95, R96). -/
def Instr.wf : Instr → Bool
  | .frameEncode => true
  | .frameDecode => true
  | .imgCapacity => true
  | .audCapacity => true
  | .imgValidate => true
  | .audValidate => true
  | .imgEmbed => true
  | .imgExtract .cbuf => true
  | .imgExtract .obuf => true
  | .audEmbed => true
  | .audExtract .cbuf => true
  | .audExtract .obuf => true

end Sys2Proof
end

