-- ==== Sys2Proof/Decode.lean ====
section
/-! DEFINITION. The command word: decoding (R90 to R98), encoding (R97), and the assembler's spellings (R100). -/

namespace Sys2Proof

/-- Field OP, bits 7:0 (R90). -/
def opField (v : Word) : Nat := (v.extractLsb' 0 8).toNat

/-- Field SRC, bit 8 (R90). -/
def srcField (v : Word) : Bool := v.getLsbD 8

/-- Field RSV, bits 31:9 (R90). -/
def rsvField (v : Word) : Nat := (v.extractLsb' 9 23).toNat

/-- The buffer a SRC bit selects: 0 = CBUF, 1 = OBUF (R94). -/
def srcOfBit (b : Bool) : Src := if b then .obuf else .cbuf

/-- `legal` of R95, clause by clause. -/
def legal (v : Word) : Bool :=
  decide (rsvField v = 0)
    && (decide (1 ≤ opField v) && decide (opField v ≤ 10))
    && (decide (srcField v = false) || decide (opField v = 8) || decide (opField v = 10))

/-- Why a word is no command (R96). The spec has one outcome for all three; the names are the model's (log 9). -/
inductive DecodeError where
  /-- RSV is not 0. -/
  | reservedBits
  /-- OP is 0x00 or above 0x0A. -/
  | noSuchCommand
  /-- SRC is 1 and the command is no extract command. -/
  | srcNotAllowed
  /-- The bytes are not those of one 32-bit word (R90, R98). -/
  | notOneWord
deriving DecidableEq, Repr

/-- The commands without an operand, by OP (R92). -/
def plainCommand (op : Nat) : Option Instr :=
  if op = 0x01 then some .frameEncode
  else if op = 0x02 then some .frameDecode
  else if op = 0x03 then some .imgCapacity
  else if op = 0x04 then some .audCapacity
  else if op = 0x05 then some .imgValidate
  else if op = 0x06 then some .audValidate
  else if op = 0x07 then some .imgEmbed
  else if op = 0x09 then some .audEmbed
  else none

/-- Decode of a command word (R92 to R95), total: a command, or the reason the word is illegal. -/
def decode (v : Word) : Except DecodeError Instr :=
  if rsvField v ≠ 0 then .error .reservedBits
  else if opField v = 0x08 then .ok (.imgExtract (srcOfBit (srcField v)))
  else if opField v = 0x0A then .ok (.audExtract (srcOfBit (srcField v)))
  else
    match plainCommand (opField v) with
    | none => .error .noSuchCommand
    | some i => if srcField v then .error .srcNotAllowed else .ok i

/-- The little-endian word of four bytes (R60). -/
def wordOfBytes (b0 b1 b2 b3 : Byte) : Word := b3 ++ b2 ++ b1 ++ b0

/-- Decode of the bytes of one access to CMD, byte 0 first: exactly four make a command word (R60, R98). -/
def decodeBytes : List Byte → Except DecodeError Instr
  | [b0, b1, b2, b3] => decode (wordOfBytes b0 b1 b2 b3)
  | _ => .error .notOneWord

/-- The SRC bit of a buffer (R94). -/
def srcBit : Src → Word
  | .cbuf => 0x00000000#32
  | .obuf => 0x00000100#32

/-- The command word of a command: the twelve words of R97. -/
def encode : Instr → Word
  | .frameEncode => 0x00000001#32
  | .frameDecode => 0x00000002#32
  | .imgCapacity => 0x00000003#32
  | .audCapacity => 0x00000004#32
  | .imgValidate => 0x00000005#32
  | .audValidate => 0x00000006#32
  | .imgEmbed => 0x00000007#32
  | .imgExtract src => 0x00000008#32 ||| srcBit src
  | .audEmbed => 0x00000009#32
  | .audExtract src => 0x0000000A#32 ||| srcBit src

/-- The instruction the decoder reads from a word of `nbits` bits numbered as spec/opcode_table.json numbers them:
the word's bits above `nbits` are 0, and its four bytes lie little-endian in the access to CMD (R60). A command word
has no bits above 31 (R90), so a longer number is no command. -/
def decodeTableWord (nbits w : Nat) : Option Instr :=
  if nbits ≤ 32 ∧ w < 2 ^ nbits then
    match decodeBytes [BitVec.ofNat 8 w, BitVec.ofNat 8 (w / 2 ^ 8), BitVec.ofNat 8 (w / 2 ^ 16),
        BitVec.ofNat 8 (w / 2 ^ 24)] with
    | .ok i => some i
    | .error _ => none
  else none

/-- The assembler's spellings of a command and the word each stands for: the table of R100, its optional operand
written out both ways. -/
def assemblyTable : List (String × Word) :=
  [("FRAME_ENCODE", 0x00000001#32), ("FRAME_DECODE", 0x00000002#32), ("IMG_CAPACITY", 0x00000003#32),
   ("AUD_CAPACITY", 0x00000004#32), ("IMG_VALIDATE", 0x00000005#32), ("AUD_VALIDATE", 0x00000006#32),
   ("IMG_EMBED", 0x00000007#32), ("IMG_EXTRACT", 0x00000008#32), ("IMG_EXTRACT CBUF", 0x00000008#32),
   ("IMG_EXTRACT OBUF", 0x00000108#32), ("AUD_EMBED", 0x00000009#32), ("AUD_EXTRACT", 0x0000000A#32),
   ("AUD_EXTRACT CBUF", 0x0000000A#32), ("AUD_EXTRACT OBUF", 0x0000010A#32)]

/-- The assembler of R100: the word of a spelling; "an assembler refuses any other spelling". -/
def assemble (text : String) : Option Word := (assemblyTable.find? fun row => row.1 == text).map Prod.snd

end Sys2Proof
end

