-- ==== Sys2Proof/Machine/State.lean ====
section
/-! DEFINITION. The state of the SSL-1 engine (R56) as plain data, with the inputs still to come, the reasons a
step can stop, and the state after reset (R221). -/

namespace Sys2Proof.Machine

/-- PHASE of the command sequencer (R22). STATUS.BUSY is 1 exactly when it is `busy` (R27). -/
inductive Phase where
  | idle
  | busy
deriving DecidableEq, Repr

/-- STATUS.ERR: the outcome of a command (R30, R190). Codes 5 to 15 are never produced and have no name (log 16). -/
inductive OutcomeCode where
  | ok
  | illegalCommand
  | unsupportedFormat
  | range
  | capacity
deriving DecidableEq, Repr

/-- What a command's pseudocode raises, with the info it records (R195). `capacity` carries the required and the
available bit count, exact (R130). -/
inductive CmdError where
  | illegalCommand
  | unsupportedFormat (channels swidth : Byte)
  | range
  | capacity (required available : Nat)
deriving DecidableEq, Repr

/-- The five buffer memories (R52). -/
inductive Buf where
  | cbuf
  | obuf
  | mbuf
  | bbuf
  | tbuf
deriving DecidableEq, Repr

/-- The width of a host access: 8, 16 or 32 bits (R71). -/
inductive Size where
  | b8
  | b16
  | b32
deriving DecidableEq, Repr

/-- One host access: the six bus operations of R102. A write's value is the 32-bit `v` of `W32 a, v`, `W16 a, v`
and `W8 a, v`, of which the access takes the low bits of its size. -/
inductive Access where
  | read (address : Word) (size : Size)
  | write (address : Word) (size : Size) (value : Word)
deriving DecidableEq, Repr

/-- Who moves next (R18, R220): the host with one access, the engine, or the environment's reset. -/
inductive Turn where
  | host (access : Access)
  | engine
  | reset
deriving DecidableEq, Repr

/-- The buffer bytes written since the last reset, by host address (R66). An address not listed has not been
written. Canonical form: `Memory.wf`. -/
abbrev Memory := List Host.Cell

/-- Why the machine stops. -/
inductive Fault where
  /-- A host access of the wrong size, misaligned, or outside the address map (R63 to R66), raised by the host's
  turn. Safe: the engine's state is unchanged (R65), and the model stops where the hardware goes on; the state it
  goes on from is `afterBusError` (log 6). -/
  | busError (access : Access)
deriving DecidableEq, Repr

/-- Why a step has no meaning. -/
inductive Refusal where
  /-- An arm of `exec` without a meaning. Safe. No arm raises it: every command is modelled. -/
  | notModelled (mnemonic : String)
  /-- The buffer sizes break a constraint of R7, so that there is no such part (U6), raised by every step. Safe
  (log 7). -/
  | illegalConfiguration
deriving DecidableEq, Repr

/-- The whole state of R56, from `phase` to `mem`; before it the configuration and after it the model's own
record of the engine's surroundings. -/
structure State where
  /-- The buffer sizes (R7): configuration, which no step writes (log 1). -/
  cfg : Config
  /-- PHASE (R22). -/
  phase : Phase
  /-- PENDING, the command word being or last executed (R22, R31). -/
  pending : Word
  /-- CTRL.IE (R25). -/
  ie : Bool
  /-- STATUS.DONE (R28). -/
  done : Bool
  /-- STATUS.WERR (R29). -/
  werr : Bool
  /-- STATUS.ERR (R30). -/
  err : OutcomeCode
  /-- MSG_LEN (R32). -/
  msgLen : Word
  /-- IMG_DIM (R33). -/
  imgDim : Word
  /-- AUD_NSAMP (R34). -/
  audNsamp : Word
  /-- AUD_FMT (R35). -/
  audFmt : Word
  /-- AUD_RATE (R36). -/
  audRate : Word
  /-- BIT_LEN (R37). -/
  bitLen : Word
  /-- REQ_BITS (R38). -/
  reqBits : BitVec 64
  /-- AVAIL_BITS (R39). -/
  availBits : BitVec 64
  /-- OUT_LEN (R40). -/
  outLen : Word
  /-- DEC_INFO (R43). -/
  decInfo : Word
  /-- PAYLOAD_BITS (R44). -/
  payloadBits : Word
  /-- OUT_AUD_FMT (R45). -/
  outAudFmt : Word
  /-- OUT_AUD_RATE (R46). -/
  outAudRate : Word
  /-- OUT_AUD_NSAMP (R47). -/
  outAudNsamp : Word
  /-- ERR_INFO (R48). -/
  errInfo : Word
  /-- CBUF, OBUF, MBUF, BBUF and TBUF (R52), at their host addresses (R66). -/
  mem : Memory
  /-- The model's own: how many resets there have been; it names the draw of every unwritten byte (R222; log 2). -/
  epoch : Nat
  /-- The model's own: how many free reads there have been (R74; log 3). -/
  draws : Nat
  /-- The model's own: the turns still to come, the next one first (R18, R78; log 4). -/
  turns : List Turn
  /-- The model's own: the data the port returned to the host's last read (R71, R103; log 10). -/
  lastRead : Option Word
deriving DecidableEq, Repr

/-- The state after reset of a part with the sizes `c`: R221, register by register. No buffer byte is written, so
every one holds a free value (R222). -/
def State.resetOf (c : Config) : State where
  cfg := c
  phase := .idle
  pending := 0
  ie := false
  done := false
  werr := false
  err := .ok
  msgLen := 0
  imgDim := 0
  audNsamp := 0
  audFmt := 0
  audRate := 0
  bitLen := 0
  reqBits := 0
  availBits := 0
  outLen := 0
  decInfo := 0
  payloadBits := 0
  outAudFmt := 0
  outAudRate := 0
  outAudNsamp := 0
  errInfo := 0
  mem := []
  epoch := 0
  draws := 0
  turns := []
  lastRead := none

/-- The machine right after reset (R221), with the sizes of K1 (DESIGN CHOICE, log 1) and nothing yet to come
(log 4). -/
def State.reset : State := State.resetOf Config.k1

end Sys2Proof.Machine
end

