-- ==== Sys2Proof/Machine/Ops.lean ====
section
/-! DEFINITION. The shared operations: the buffer memory (R13, R60, R66), the start of a command (R41), its
completion with or without an error (R42, R195), and reset (R220 to R223). -/

namespace Sys2Proof.Machine

/-! ### The buffer memory -/

/-- The canonical form: addresses strictly rising. An unlisted address has no written value, so no entry can equal
what an unlisted address holds (log 8). -/
abbrev Memory.wf (m : Memory) : Prop := m.Pairwise fun x y => x.1 < y.1

/-- The byte written at an address, if one has been written since the last reset. -/
def Memory.byteAt : Memory → Nat → Option Byte
  | [], _ => none
  | (k, v) :: m, a => if a = k then some v else Memory.byteAt m a

/-- Write one byte, keeping the canonical form. -/
def Memory.store : Memory → Nat → Byte → Memory
  | [], a, b => [(a, b)]
  | (k, v) :: m, a, b =>
    if a < k then (a, b) :: (k, v) :: m
    else if a = k then (a, b) :: m
    else (k, v) :: Memory.store m a b

/-- Write a sequence of bytes at consecutive addresses. -/
def Memory.storeBytes (m : Memory) (a : Nat) : List Byte → Memory
  | [] => m
  | b :: bs => Memory.storeBytes (Memory.store m a b) (a + 1) bs

/-- The byte at a host address: the byte written there, or the free value of an unwritten byte (R53, U1; log 2). -/
def State.byte (s : State) (a : Nat) : Byte :=
  match s.mem.byteAt a with
  | some b => b
  | none => Config.freeByte s.epoch a

/-- The `n` bytes from a host address on. -/
def State.bytes (s : State) (a n : Nat) : List Byte := (List.range n).map fun i => s.byte (a + i)

/-- The state with a sequence of bytes written from a host address on. -/
def State.storeBytes (s : State) (a : Nat) (bs : List Byte) : State := { s with mem := s.mem.storeBytes a bs }

/-- The value of bytes read little-endian: the first is bits 7:0 (R60). -/
def leValue : List Byte → Nat
  | [] => 0
  | b :: bs => b.toNat + 256 * leValue bs

/-- The `n` low bytes of a value, little-endian (R60). -/
def leBytes : Nat → Nat → List Byte
  | 0, _ => []
  | n + 1, v => BitVec.ofNat 8 v :: leBytes n (v / 256)

/-- `MemRead(addr, n)` of R13. -/
def memRead (s : State) (a n : Nat) : Nat := leValue (s.bytes a n)

/-- `MemWrite(addr, n, v)` of R13. -/
def memWrite (s : State) (a n v : Nat) : State := s.storeBytes a (leBytes n v)

/-- The host address of a buffer's byte 0 (R66). -/
def bufBase : Buf → Nat
  | .cbuf => 0x01000000
  | .obuf => 0x02000000
  | .mbuf => 0x03000000
  | .bbuf => 0x04000000
  | .tbuf => 0x05000000

/-- The implemented size of a buffer in bytes (R52): OBUF has the size of CBUF. -/
def bufSize (c : Config) : Buf → Nat
  | .cbuf => c.nCbuf
  | .obuf => c.nCbuf
  | .mbuf => c.nMbuf
  | .bbuf => c.nBbuf
  | .tbuf => c.nTbuf

/-! ### A command's start and end -/

/-- Command start (R41): a host write of `v` to CMD while IDLE. -/
def commandStart (v : Word) (s : State) : State :=
  { s with pending := v, phase := .busy, done := false, err := .ok }

/-- The code of an error (R190). -/
def errorCode : CmdError → OutcomeCode
  | .illegalCommand => .illegalCommand
  | .unsupportedFormat _ _ => .unsupportedFormat
  | .range => .range
  | .capacity _ _ => .capacity

/-- What an error leaves in ERR_INFO: `(sw << 8) | ch` for a format error, else 0 (R42, R195). -/
def errorInfo : CmdError → Word
  | .unsupportedFormat ch sw => (sw.setWidth 32 <<< 8) ||| ch.setWidth 32
  | _ => 0

/-- What an error records beside ERR_INFO: a capacity error its two bit counts (R195). -/
def recordInfo : CmdError → State → State
  | .capacity required available, s =>
    { s with reqBits := BitVec.ofNat 64 required, availBits := BitVec.ofNat 64 available }
  | _, s => s

/-- The end of every completion step (R42). -/
def finish (code : OutcomeCode) (info : Word) (s : State) : State :=
  { s with err := code, errInfo := info, done := true, phase := .idle }

/-- Taking an error (R195): on the state before the command, so that everything it staged is discarded. There is no
handler and no return (R199, R202). -/
def raiseError (e : CmdError) (s : State) : State := finish (errorCode e) (errorInfo e) (recordInfo e s)

/-- Completing with OK (R42): on the state that holds the command's staged writes. -/
def completeOk (s : State) : State := finish .ok 0 s

/-- The completion step of a command on the state `s`, given what its pseudocode ends in: its staged writes,
committed at once, or the error it raised (R14, R42). -/
def complete (s : State) : Except CmdError State → Host.Outcome State Fault Refusal
  | .ok staged => .next (completeOk staged)
  | .error e => .next (raiseError e s)

/-! ### Reset -/

/-- Reset as one step of the environment (R220 to R223): every register at its reset value, every buffer byte drawn
anew, a running command abandoned. What belongs to the surroundings stays: the sizes, the turns to come, the host's
last read and the numbering of free reads (log 11). -/
def resetEngine (s : State) : State :=
  { State.resetOf s.cfg with
    epoch := s.epoch + 1, draws := s.draws, turns := s.turns, lastRead := s.lastRead }

end Sys2Proof.Machine
end

