-- ==== Sys2Proof/Machine/Operands.lean ====
section
/-! DEFINITION. The operands of the commands (R91, R99): unsigned, zero-extended, read from the parameter registers. -/

namespace Sys2Proof.Machine

/-- L, the message length in bytes (R32). -/
def opL (s : State) : Nat := s.msgLen.toNat

/-- W, the image width in pixels: IMG_DIM bits 15:0 (R33). -/
def opW (s : State) : Nat := (s.imgDim.extractLsb' 0 16).toNat

/-- H, the image height in pixels: IMG_DIM bits 31:16 (R33). -/
def opH (s : State) : Nat := (s.imgDim.extractLsb' 16 16).toNat

/-- N, the sample count (R34). -/
def opN (s : State) : Nat := s.audNsamp.toNat

/-- CH, the channel count: AUD_FMT bits 7:0 (R35). -/
def opCh (s : State) : Byte := s.audFmt.extractLsb' 0 8

/-- SW, the sample width in bytes: AUD_FMT bits 15:8 (R35). -/
def opSw (s : State) : Byte := s.audFmt.extractLsb' 8 8

/-- n, the bit count of the sequence in BBUF (R37). -/
def opBits (s : State) : Nat := s.bitLen.toNat

/-- `base` of an extract command: CBUF or OBUF, by SRC (R94). -/
def opBase : Src → Nat
  | .cbuf => bufBase .cbuf
  | .obuf => bufBase .obuf

/-- The message: MBUF bytes 0 to L-1 (R32). -/
def message (s : State) : List Byte := s.bytes (bufBase .mbuf) (opL s)

/-- `audioFormatOk` of R192: one channel of 16-bit samples. COMP is not looked at (R178). -/
def audioFormatOk (s : State) : Bool := decide (opCh s = 1) && decide (opSw s = 2)

end Sys2Proof.Machine
end

