-- ==== Sys2Proof/Machine/Capacity.lean ====
section
/-! DEFINITION. The CapacityValidator (41_capacity.md): its functions (R130), computed exactly, and its four
commands. -/

namespace Sys2Proof.Machine

/-- `capImg` of R130: three channels a pixel, one bit a channel. -/
def capImg (w h : Nat) : Nat := 3 * w * h

/-- `capAud` of R130: one bit a sample. -/
def capAud (n : Nat) : Nat := n

/-- `required` of R130: the payload bits and the terminator. -/
def required (len : Nat) : Nat := 8 * len + 16

/-- The capacity of the image carrier IMG_DIM describes. -/
def imgUnits (s : State) : Nat := capImg (opW s) (opH s)

/-- AVAIL_BITS written (R39). -/
def setAvail (avail : Nat) (s : State) : State := { s with availBits := BitVec.ofNat 64 avail }

/-- REQ_BITS and AVAIL_BITS written (R38, R39). -/
def setReqAvail (req avail : Nat) (s : State) : State :=
  { s with reqBits := BitVec.ofNat 64 req, availBits := BitVec.ofNat 64 avail }

/-- IMG_CAPACITY (R131): no RANGE check, no REQ_BITS. -/
def execImgCapacity (s : State) : Host.Outcome State Fault Refusal :=
  complete s (.ok (setAvail (imgUnits s) s))

/-- AUD_CAPACITY (R132): the format is not checked. -/
def execAudCapacity (s : State) : Host.Outcome State Fault Refusal :=
  complete s (.ok (setAvail (capAud (opN s)) s))

/-- The pseudocode shared by IMG_VALIDATE and AUD_VALIDATE, for a capacity (R133, R134, R194). -/
def validateEffect (avail : Nat) (s : State) : Except CmdError State :=
  if avail < required (opL s) then .error (.capacity (required (opL s)) avail)
  else .ok (setReqAvail (required (opL s)) avail s)

/-- IMG_VALIDATE (R133): no buffer is checked. -/
def execImgValidate (s : State) : Host.Outcome State Fault Refusal := complete s (validateEffect (imgUnits s) s)

/-- AUD_VALIDATE (R134): neither the format nor a buffer is checked. -/
def execAudValidate (s : State) : Host.Outcome State Fault Refusal :=
  complete s (validateEffect (capAud (opN s)) s)

end Sys2Proof.Machine
end

