-- ==== Sys2Proof/Machine/Flags.lean ====
section
/-! DEFINITION. The flags as the host sees them (R50): CTRL, STATUS, DEC_INFO and the interrupt output. -/

namespace Sys2Proof.Machine

/-- The 4-bit code of an outcome (R30, R190). -/
def outcomeBits : OutcomeCode → BitVec 4
  | .ok => 0
  | .illegalCommand => 1
  | .unsupportedFormat => 2
  | .range => 3
  | .capacity => 4

/-- A flag as a bit of a register word. -/
def flagWord (b : Bool) : Word := (BitVec.ofBool b).setWidth 32

/-- STATUS as it reads (R26): BUSY bit 0, DONE bit 1, WERR bit 2, ERR bits 11:8, the rest 0. -/
def statusWord (s : State) : Word :=
  flagWord (decide (s.phase = .busy)) ||| (flagWord s.done <<< 1) ||| (flagWord s.werr <<< 2)
    ||| ((outcomeBits s.err).setWidth 32 <<< 8)

/-- A host write of `v` to STATUS, in either PHASE (R26): writing 1 clears DONE, WERR. -/
def writeStatus (v : Word) (s : State) : State :=
  { s with done := s.done && !v.getLsbD 1, werr := s.werr && !v.getLsbD 2 }

/-- CTRL as it reads: IE bit 0, the rest 0 (R25). -/
def ctrlWord (s : State) : Word := flagWord s.ie

/-- A host write of `v` to CTRL, in either PHASE (R25): bits 31:1 are ignored. -/
def writeCtrl (v : Word) (s : State) : State := { s with ie := v.getLsbD 0 }

/-- A host write dropped because a command runs: WERR is set and nothing is stored (R29, R73). -/
def dropWrite (s : State) : State := { s with werr := true }

/-- DEC_INFO of a decode: `((p mod 8) << 1) | found` (R43, R115). -/
def decInfoWord (found : Bool) (p : Nat) : Word := BitVec.ofNat 32 ((p % 8) * 2 + found.toNat)

/-- DEC_INFO.TERM_FOUND, bit 0 (R43). -/
def termFound (s : State) : Bool := s.decInfo.getLsbD 0

/-- DEC_INFO.DISCARDED, bits 3:1 (R43). -/
def discarded (s : State) : Nat := (s.decInfo.extractLsb' 1 3).toNat

/-- The interrupt output, level, active high (R55, R200). -/
def irq (s : State) : Bool := s.done && s.ie

end Sys2Proof.Machine
end

