-- ==== Sys2Proof/Machine/Framer.lean ====
section
/-! DEFINITION. The BitFramer (40_framer.md): its functions (R110 to R115) and FRAME_ENCODE and FRAME_DECODE. -/

namespace Sys2Proof.Machine

/-- `bitsOfByte` of R110: bit 7 first. -/
def bitsOfByte (b : Byte) : List Bool :=
  [b.getLsbD 7, b.getLsbD 6, b.getLsbD 5, b.getLsbD 4, b.getLsbD 3, b.getLsbD 2, b.getLsbD 1, b.getLsbD 0]

/-- `pack8` of R110. -/
def pack8 (s0 s1 s2 s3 s4 s5 s6 s7 : Bool) : Byte :=
  BitVec.ofNat 8 (s0.toNat * 128 + s1.toNat * 64 + s2.toNat * 32 + s3.toNat * 16 + s4.toNat * 8 + s5.toNat * 4
    + s6.toNat * 2 + s7.toNat)

/-- The consecutive runs of 8 bits of a sequence, packed; a trailing run shorter than 8 forms no byte (R114). -/
def packBytes : List Bool → List Byte
  | s0 :: s1 :: s2 :: s3 :: s4 :: s5 :: s6 :: s7 :: rest => pack8 s0 s1 s2 s3 s4 s5 s6 s7 :: packBytes rest
  | _ => []

/-- TERM of R111: fifteen 1 bits and one 0 bit. -/
def term : List Bool := List.replicate 15 true ++ [false]

/-- The bits of a message, MSB-first per byte, in message order (R61, R112). -/
def bitsOf (msg : List Byte) : List Bool := msg.flatMap bitsOfByte

/-- `frame` of R112. -/
def frame (msg : List Byte) : List Bool := bitsOf msg ++ term

/-- `findTerm` of R113: the first index, at any bit, at which TERM stands whole. -/
def findTerm : List Bool → Option Nat
  | [] => none
  | b :: s => if term.isPrefixOf (b :: s) then some 0 else (findTerm s).map (· + 1)

/-- What `deframe` gives (R114): the bytes, whether TERM was found, and the payload bit count. -/
structure Deframed where
  out : List Byte
  found : Bool
  payload : Nat
deriving DecidableEq, Repr

/-- `deframe` of R114: total, the whole sequence is payload when there is no TERM. -/
def deframe (s : List Bool) : Deframed :=
  match findTerm s with
  | some p => { out := packBytes (s.take p), found := true, payload := p }
  | none => { out := packBytes s, found := false, payload := s.length }

/-- `EmitDecoded` of R115. -/
def emitDecoded (d : Deframed) (s : State) : State :=
  { s.storeBytes (bufBase .tbuf) d.out with
    outLen := BitVec.ofNat 32 d.out.length
    payloadBits := BitVec.ofNat 32 d.payload
    decInfo := decInfoWord d.found d.payload }

/-- `BBit(i)` of R70: bit `7 - (i mod 8)` of BBUF byte `i div 8`. -/
def bbit (s : State) (i : Nat) : Bool := (s.byte (bufBase .bbuf + i / 8)).getLsbD (7 - i % 8)

/-- The bit sequence of BBUF: its first `n` bits (R70, R118). -/
def bbufBits (s : State) (n : Nat) : List Bool := (List.range n).map (bbit s)

/-- The pseudocode of FRAME_ENCODE (R116). -/
def frameEncodeEffect (s : State) : Except CmdError State :=
  if s.cfg.nMbuf < opL s ∨ s.cfg.nBbuf < opL s + 2 then .error .range
  else
    .ok { s.storeBytes (bufBase .bbuf) (packBytes (frame (message s))) with
      bitLen := BitVec.ofNat 32 (8 * opL s + 16) }

/-- FRAME_ENCODE (R116): frame the message into BBUF. -/
def execFrameEncode (s : State) : Host.Outcome State Fault Refusal := complete s (frameEncodeEffect s)

/-- The pseudocode of FRAME_DECODE (R118). -/
def frameDecodeEffect (s : State) : Except CmdError State :=
  if 8 * s.cfg.nBbuf < opBits s then .error .range
  else .ok (emitDecoded (deframe (bbufBits s (opBits s))) s)

/-- FRAME_DECODE (R118): deframe the bit sequence in BBUF into TBUF. -/
def execFrameDecode (s : State) : Host.Outcome State Fault Refusal := complete s (frameDecodeEffect s)

end Sys2Proof.Machine
end

