-- ==== Sys2Proof/Machine/Image.lean ====
section
/-! DEFINITION. The ImageCodec (42_image.md): LSB substitution (R150), IMG_EMBED and IMG_EXTRACT. -/

namespace Sys2Proof.Machine

/-- `setLsb_w` of R150: clear bit 0, OR in the new bit. -/
def setLsb {w : Nat} (v : BitVec w) (b : Bool) : BitVec w := (v &&& BitVec.ofNat w (2 ^ w - 2)) ||| BitVec.ofNat w b.toNat

/-- `embedUnits_w` of R150: bit k of the sequence goes to unit k, and once the bits are used up every later unit is
unchanged. -/
def embedUnits {w : Nat} : List (BitVec w) → List Bool → List (BitVec w)
  | u :: us, b :: bs => setLsb u b :: embedUnits us bs
  | us, [] => us
  | [], _ => []

/-- The pseudocode of IMG_EMBED (R151): RANGE before CAPACITY (R196), both before any write (R136). -/
def imgEmbedEffect (s : State) : Except CmdError State :=
  if s.cfg.nMbuf < opL s ∨ s.cfg.nCbuf < imgUnits s then .error .range
  else if imgUnits s < required (opL s) then .error (.capacity (required (opL s)) (imgUnits s))
  else
    .ok (setReqAvail (required (opL s)) (imgUnits s)
      (s.storeBytes (bufBase .obuf) (embedUnits (s.bytes (bufBase .cbuf) (imgUnits s)) (frame (message s)))))

/-- IMG_EMBED (R151): embed the message into a copy of the image carrier. -/
def execImgEmbed (s : State) : Host.Outcome State Fault Refusal := complete s (imgEmbedEffect s)

/-- `lsbImg` of R154: the LSB of every unit, in unit order. -/
def lsbImg (s : State) (base n : Nat) : List Bool := (List.range n).map fun k => (s.byte (base + k)).getLsbD 0

/-- The pseudocode of IMG_EXTRACT (R156). -/
def imgExtractEffect (src : Src) (s : State) : Except CmdError State :=
  if s.cfg.nCbuf < imgUnits s then .error .range
  else .ok (emitDecoded (deframe (lsbImg s (opBase src) (imgUnits s))) s)

/-- IMG_EXTRACT (R156): recover the message bytes from the LSBs of an image carrier. -/
def execImgExtract (src : Src) (s : State) : Host.Outcome State Fault Refusal := complete s (imgExtractEffect src s)

end Sys2Proof.Machine
end

