-- ==== Sys2Proof/Machine/Audio.lean ====
section
/-! DEFINITION. The AudioCodec (43_audio.md): AUD_EMBED and AUD_EXTRACT on mono 16-bit samples. -/

namespace Sys2Proof.Machine

/-- `AudSample(base, i)` of R69: the 16-bit little-endian pattern of sample i. -/
def audSample (s : State) (base i : Nat) : BitVec 16 := BitVec.ofNat 16 (memRead s (base + 2 * i) 2)

/-- The `n` samples of a carrier. -/
def audSamples (s : State) (base n : Nat) : List (BitVec 16) := (List.range n).map (audSample s base)

/-- The bytes of a sequence of samples in a buffer (R69). -/
def sampleBytes (samples : List (BitVec 16)) : List Byte := samples.flatMap fun e => leBytes 2 e.toNat

/-- The stream parameters echoed into the OUT_AUD registers (R45 to R47, R174). -/
def echoStream (s : State) : State :=
  { s with outAudFmt := s.audFmt, outAudRate := s.audRate, outAudNsamp := s.audNsamp }

/-- The pseudocode of AUD_EMBED (R171): the format first, then RANGE, then CAPACITY (R196). -/
def audEmbedEffect (s : State) : Except CmdError State :=
  if audioFormatOk s = false then .error (.unsupportedFormat (opCh s) (opSw s))
  else if s.cfg.nMbuf < opL s ∨ s.cfg.nCbuf < 2 * opN s then .error .range
  else if capAud (opN s) < required (opL s) then .error (.capacity (required (opL s)) (opN s))
  else
    .ok (echoStream (setReqAvail (required (opL s)) (opN s)
      (s.storeBytes (bufBase .obuf)
        (sampleBytes (embedUnits (audSamples s (bufBase .cbuf) (opN s)) (frame (message s)))))))

/-- AUD_EMBED (R171): embed the message into a copy of the audio carrier. -/
def execAudEmbed (s : State) : Host.Outcome State Fault Refusal := complete s (audEmbedEffect s)

/-- `lsbAud` of R175: bit 0 of the low byte of every sample; the high byte is not read. -/
def lsbAud (s : State) (base n : Nat) : List Bool := (List.range n).map fun i => (s.byte (base + 2 * i)).getLsbD 0

/-- The pseudocode of AUD_EXTRACT (R176): the format first, then RANGE. -/
def audExtractEffect (src : Src) (s : State) : Except CmdError State :=
  if audioFormatOk s = false then .error (.unsupportedFormat (opCh s) (opSw s))
  else if s.cfg.nCbuf < 2 * opN s then .error .range
  else .ok (emitDecoded (deframe (lsbAud s (opBase src) (opN s))) s)

/-- AUD_EXTRACT (R176): recover the message bytes from the LSBs of an audio carrier. -/
def execAudExtract (src : Src) (s : State) : Host.Outcome State Fault Refusal := complete s (audExtractEffect src s)

end Sys2Proof.Machine
end

