-- ==== Sys2Proof/Machine/Dispatch.lean ====
section
/-! DEFINITION. The meaning of each command: its completion step (R42), by the rule of R92's row for it. -/

namespace Sys2Proof.Machine

def exec (i : Instr) (s : State) : Host.Outcome State Fault Refusal :=
  match i with
  | .frameEncode => Sys2Proof.Machine.execFrameEncode s
  | .frameDecode => Sys2Proof.Machine.execFrameDecode s
  | .imgCapacity => Sys2Proof.Machine.execImgCapacity s
  | .audCapacity => Sys2Proof.Machine.execAudCapacity s
  | .imgValidate => Sys2Proof.Machine.execImgValidate s
  | .audValidate => Sys2Proof.Machine.execAudValidate s
  | .imgEmbed => Sys2Proof.Machine.execImgEmbed s
  | .imgExtract src => Sys2Proof.Machine.execImgExtract src s
  | .audEmbed => Sys2Proof.Machine.execAudEmbed s
  | .audExtract src => Sys2Proof.Machine.execAudExtract src s

end Sys2Proof.Machine
end

