-- ==== Sys2Proof/Machine/HostPort.lean ====
section
/-! DEFINITION. The host port (20_memory.md, 10_state.md): the register map (R23), the address map (R66), and what
one host access does (R63 to R74). -/

namespace Sys2Proof.Machine

/-- The registers of the register map (R23). -/
inductive Reg where
  | id | ctrl | status | cmd
  | msgLen | imgDim | audNsamp | audFmt | audRate | bitLen
  | reqBitsLo | reqBitsHi | availBitsLo | availBitsHi
  | outLen | decInfo | payloadBits
  | outAudFmt | outAudRate | outAudNsamp | errInfo
deriving DecidableEq, Repr

/-- The offset of a register (R23). -/
def regOffset : Reg → Nat
  | .id => 0x000
  | .ctrl => 0x004
  | .status => 0x008
  | .cmd => 0x00C
  | .msgLen => 0x010
  | .imgDim => 0x014
  | .audNsamp => 0x018
  | .audFmt => 0x01C
  | .audRate => 0x020
  | .bitLen => 0x024
  | .reqBitsLo => 0x028
  | .reqBitsHi => 0x02C
  | .availBitsLo => 0x030
  | .availBitsHi => 0x034
  | .outLen => 0x038
  | .decInfo => 0x03C
  | .payloadBits => 0x040
  | .outAudFmt => 0x044
  | .outAudRate => 0x048
  | .outAudNsamp => 0x04C
  | .errInfo => 0x050

/-- Every register, in the order of the map. -/
def allRegs : List Reg :=
  [.id, .ctrl, .status, .cmd, .msgLen, .imgDim, .audNsamp, .audFmt, .audRate, .bitLen, .reqBitsLo, .reqBitsHi,
   .availBitsLo, .availBitsHi, .outLen, .decInfo, .payloadBits, .outAudFmt, .outAudRate, .outAudNsamp, .errInfo]

/-- The register at an offset; none at the reserved offsets (R23, R49). -/
def regAt (off : Nat) : Option Reg := allRegs.find? fun r => decide (regOffset r = off)

/-- The identification word (R2, R24). -/
def idWord : Word := 0x4C534231#32

/-- The stored value of a register as the host reads it (R23 to R48). No read has a side effect (R72). -/
def readReg (r : Reg) (s : State) : Word :=
  match r with
  | .id => idWord
  | .ctrl => ctrlWord s
  | .status => statusWord s
  | .cmd => s.pending
  | .msgLen => s.msgLen
  | .imgDim => s.imgDim
  | .audNsamp => s.audNsamp
  | .audFmt => s.audFmt
  | .audRate => s.audRate
  | .bitLen => s.bitLen
  | .reqBitsLo => s.reqBits.extractLsb' 0 32
  | .reqBitsHi => s.reqBits.extractLsb' 32 32
  | .availBitsLo => s.availBits.extractLsb' 0 32
  | .availBitsHi => s.availBits.extractLsb' 32 32
  | .outLen => s.outLen
  | .decInfo => s.decInfo
  | .payloadBits => s.payloadBits
  | .outAudFmt => s.outAudFmt
  | .outAudRate => s.outAudRate
  | .outAudNsamp => s.outAudNsamp
  | .errInfo => s.errInfo

/-- A host write of `v` to a register that takes effect (R23 to R48): read-only registers ignore it (R72). -/
def writeReg (r : Reg) (v : Word) (s : State) : State :=
  match r with
  | .id => s
  | .ctrl => writeCtrl v s
  | .status => writeStatus v s
  | .cmd => commandStart v s
  | .msgLen => { s with msgLen := v }
  | .imgDim => { s with imgDim := v }
  | .audNsamp => { s with audNsamp := v }
  | .audFmt => { s with audFmt := v }
  | .audRate => { s with audRate := v }
  | .bitLen => { s with bitLen := v }
  | .reqBitsLo => s
  | .reqBitsHi => s
  | .availBitsLo => s
  | .availBitsHi => s
  | .outLen => s
  | .decInfo => s
  | .payloadBits => s
  | .outAudFmt => s
  | .outAudRate => s
  | .outAudNsamp => s
  | .errInfo => s

/-- The bytes of an access (R71). -/
def sizeBytes : Size → Nat
  | .b8 => 1
  | .b16 => 2
  | .b32 => 4

/-- What a legal access reaches: a register, a reserved offset of the register window (R49), or bytes of a buffer
from an offset on. -/
inductive Target where
  | reg (r : Reg)
  | reserved
  | buffer (b : Buf) (offset : Nat)
deriving DecidableEq, Repr

/-- The buffer whose 2^24-byte window an address lies in, by the address's top byte (R66). -/
def bufOfWindow (top : Nat) : Option Buf :=
  if top = 1 then some .cbuf
  else if top = 2 then some .obuf
  else if top = 3 then some .mbuf
  else if top = 4 then some .bbuf
  else if top = 5 then some .tbuf
  else none

/-- The target of an access, or none when the access is a bus error: the register window takes aligned 32-bit
accesses (R63), a buffer naturally aligned accesses that lie wholly inside its implemented size (R64), and every
other address is unmapped (R66). -/
def target (c : Config) (address : Word) (size : Size) : Option Target :=
  let a := address.toNat
  if a < 0x100 then
    if size = .b32 ∧ a % 4 = 0 then
      match regAt a with
      | some r => some (.reg r)
      | none => some .reserved
    else none
  else
    match bufOfWindow (a / 2 ^ 24) with
    | none => none
    | some b =>
      if a % sizeBytes size = 0 ∧ a % 2 ^ 24 + sizeBytes size ≤ bufSize c b then some (.buffer b (a % 2 ^ 24))
      else none

/-- The output locations of R74, whose reads are free while a command runs. -/
def isOutput : Target → Bool
  | .reg .bitLen => true
  | .reg .reqBitsLo => true
  | .reg .reqBitsHi => true
  | .reg .availBitsLo => true
  | .reg .availBitsHi => true
  | .reg .outLen => true
  | .reg .decInfo => true
  | .reg .payloadBits => true
  | .reg .outAudFmt => true
  | .reg .outAudRate => true
  | .reg .outAudNsamp => true
  | .reg .errInfo => true
  | .reg _ => false
  | .reserved => false
  | .buffer .obuf _ => true
  | .buffer .bbuf _ => true
  | .buffer .tbuf _ => true
  | .buffer .cbuf _ => false
  | .buffer .mbuf _ => false

/-- The two registers whose writes take effect in either PHASE (R73). -/
def exemptFromDrop : Target → Bool
  | .reg .ctrl => true
  | .reg .status => true
  | _ => false

/-- The stored value of a target, little-endian and zero-extended to the port's width (R49, R60, R62). -/
def readTarget (t : Target) (size : Size) (s : State) : Word :=
  match t with
  | .reg r => readReg r s
  | .reserved => 0
  | .buffer b off => BitVec.ofNat 32 (memRead s (bufBase b + off) (sizeBytes size))

/-- A write that takes effect: the register's own, nothing at a reserved offset (R49), the low bytes of the value in
a buffer (R62, R102). -/
def writeTarget (t : Target) (size : Size) (v : Word) (s : State) : State :=
  match t with
  | .reg r => writeReg r v s
  | .reserved => s
  | .buffer b off => memWrite s (bufBase b + off) (sizeBytes size) v.toNat

/-- The data of a free read (R74): a draw of the width of the access. -/
def freeReadData (s : State) (size : Size) : Word :=
  BitVec.ofNat 32 ((Config.freeRead s.draws).toNat % 256 ^ sizeBytes size)

/-- A host read (R71, R72, R74). -/
def hostRead (address : Word) (size : Size) (s : State) : Host.Outcome State Fault Refusal :=
  match target s.cfg address size with
  | none => .fault (.busError (.read address size))
  | some t =>
    if s.phase = .busy ∧ isOutput t = true then
      .next { s with lastRead := some (freeReadData s size), draws := s.draws + 1 }
    else .next { s with lastRead := some (readTarget t size s) }

/-- A host write (R71 to R73). -/
def hostWrite (address : Word) (size : Size) (v : Word) (s : State) : Host.Outcome State Fault Refusal :=
  match target s.cfg address size with
  | none => .fault (.busError (.write address size v))
  | some t =>
    if s.phase = .busy ∧ exemptFromDrop t = false then .next (dropWrite s)
    else .next (writeTarget t size v s)

/-- One host access (R71). -/
def hostAccess (a : Access) (s : State) : Host.Outcome State Fault Refusal :=
  match a with
  | .read address size => hostRead address size s
  | .write address size v => hostWrite address size v s

end Sys2Proof.Machine
end

