-- ==== Sys2Proof/Machine/Sequencer.lean ====
section
/-! DEFINITION. The command sequencer (R22, R41, R42) and the interleaving of the agents (R18, R78). -/

namespace Sys2Proof.Machine

/-- The completion step (R42): PENDING is decoded only now (R31, R95), and a word that is no command completes with
ILLEGAL_COMMAND (R191). -/
def completionStep (s : State) : Host.Outcome State Fault Refusal :=
  match decode s.pending with
  | .ok i => exec i s
  | .error _ => .next (raiseError .illegalCommand s)

/-- The engine's turn: the completion step when BUSY, nothing when IDLE (R42, R209). -/
def engineTurn (s : State) : Host.Outcome State Fault Refusal :=
  match s.phase with
  | .busy => completionStep s
  | .idle => .next s

/-- One turn of one agent (R18, R220). -/
def takeTurn (t : Turn) (s : State) : Host.Outcome State Fault Refusal :=
  match t with
  | .host a => hostAccess a s
  | .engine => engineTurn s
  | .reset => .next (resetEngine s)

/-- The next turn of the list; when the list is used up the engine moves, so that a running command completes
(R78, R236; log 4). -/
def nextTurn (s : State) : Host.Outcome State Fault Refusal :=
  match s.turns with
  | [] => engineTurn s
  | t :: ts => takeTurn t { s with turns := ts }

/-- The state the engine goes on from after a bus error: nothing has changed (R65), and the host's turn is over.
What the host then does is the host's (U10; log 6). -/
def afterBusError (s : State) : State := { s with turns := s.turns.tail }

end Sys2Proof.Machine
end

