-- ==== Sys2Proof/Machine/Step.lean ====
section
/-! DEFINITION. One step of the machine: one turn of one agent (R18). -/

namespace Sys2Proof.Machine

/-- One step. A configuration that breaks a constraint of R7 is refused: it describes no part (U6; log 7). -/
def step (s : State) : Host.Outcome State Fault Refusal :=
  if s.cfg.wf then nextTurn s else .refused .illegalConfiguration

/-- `s` with the command word `w` started and the engine's turn next: the engine fetches nothing (R21), a word comes
to run by a host write to CMD, whose effect this is (R41; log 5). -/
def State.withFetchWord (s : State) (nbits w : Nat) : State :=
  { commandStart (BitVec.ofNat 32 (w % 2 ^ nbits)) s with turns := .engine :: s.turns }

end Sys2Proof.Machine
end

