-- ==== Sys2Proof/Safety.lean ====
section
/-! DEFINITION. The terms the claims use: the invariant of the machine, what a frame says of memory, and runs. -/

namespace Sys2Proof.Machine

/-- The five buffers (R52). -/
def allBufs : List Buf := [.cbuf, .obuf, .mbuf, .bbuf, .tbuf]

/-- The address of an implemented byte of a buffer (R66). -/
def inBuffer (c : Config) (b : Buf) (a : Nat) : Bool :=
  decide (bufBase b ≤ a) && decide (a < bufBase b + bufSize c b)

/-- The address of some implemented buffer byte (R66). -/
def mapped (c : Config) (a : Nat) : Bool := allBufs.any fun b => inBuffer c b a

/-- Every byte outside the `n` bytes from `lo` on reads in `t` as it did in `s`. -/
def unchangedOutside (s t : State) (lo n : Nat) : Prop := ∀ a, a < lo ∨ lo + n ≤ a → t.byte a = s.byte a

/-- `t` is `s` after a decode or extract of the bit sequence `bits` that completed with OK (R42, R115): the bytes of
`deframe bits` from TBUF byte 0 on, OUT_LEN, PAYLOAD_BITS and DEC_INFO, the outcome, and nothing else. -/
structure Decoded (s t : State) (bits : List Bool) : Prop where
  /-- Every register but the four of the decode, ERR_INFO and STATUS is unchanged. -/
  registers : t =
    { s with
      mem := t.mem, outLen := t.outLen, payloadBits := t.payloadBits, decInfo := t.decInfo
      err := .ok, errInfo := 0, done := true, phase := .idle }
  outLen : t.outLen.toNat = (deframe bits).out.length
  payload : t.payloadBits.toNat = (deframe bits).payload
  found : termFound t = (deframe bits).found
  discarded : discarded t = (deframe bits).payload % 8
  reserved : t.decInfo.toNat < 2 ^ 4
  written : ∀ (j : Nat) (h : j < (deframe bits).out.length), t.byte (bufBase .tbuf + j) = (deframe bits).out[j]
  memory : unchangedOutside s t (bufBase .tbuf) (deframe bits).out.length

/-- The invariant every step of a part keeps. -/
structure State.Inv (s : State) : Prop where
  /-- The memory is in canonical form. -/
  memWf : s.mem.wf
  /-- Only implemented buffer bytes have been written (R64, R75). -/
  memMapped : ∀ cell ∈ s.mem, mapped s.cfg cell.1 = true
  /-- "DONE = 1 and BUSY = 1 never hold together" (R28). -/
  doneIdle : s.done = true → s.phase = .idle
  /-- ERR is 0 while a command runs (R30, R41). -/
  busyErr : s.phase = .busy → s.err = .ok
  /-- DEC_INFO bits 31:4 read 0 (R43). -/
  decReserved : s.decInfo.toNat < 2 ^ 4
  /-- ERR_INFO bits 31:16 read 0 (R48). -/
  errReserved : s.errInfo.toNat < 2 ^ 16
  /-- OUT_LEN = p div 8 (R44). -/
  outLenPayload : s.outLen.toNat = s.payloadBits.toNat / 8
  /-- DISCARDED = p mod 8 (R44). -/
  discardedPayload : discarded s = s.payloadBits.toNat % 8
  /-- Every extraction fits TBUF (R7, R115). -/
  outLenFits : s.outLen.toNat ≤ s.cfg.nTbuf
  /-- REQ_BITS is below 2^36 (R38). -/
  reqBound : s.reqBits.toNat < 2 ^ 36
  /-- AVAIL_BITS is below 2^34 (R39). -/
  availBound : s.availBits.toNat < 2 ^ 34

/-- One step for a host that goes on after a bus error (U10; log 6). -/
def stepOn (s : State) : State :=
  match step s with
  | .next t => t
  | .fault _ => afterBusError s
  | .refused _ => s

/-- `n` such steps. -/
def runOn : Nat → State → State
  | 0, s => s
  | n + 1, s => runOn n (stepOn s)

/-- None of the first `n` steps is a bus error or a refusal. -/
def safeRun : Nat → State → Prop
  | 0, _ => True
  | n + 1, s => ∃ t, step s = .next t ∧ safeRun n t

end Sys2Proof.Machine
end

