-- ==== Sys2Proof/Certificates/Slice0/Obligations.lean ====
section
/-! DEFINITION. The statements about the machine, by the rules of spec/ they come from. -/

open Sys2Proof Sys2Proof.Machine

/-! ### Command words -/

/-- Decoding and encoding agree on all words: a word decodes to a command exactly when it is that command's word. -/
def Obligations.DecodeIsExactlyEncode : Prop :=
  ∀ (v : Word) (i : Instr), decode v = .ok i ↔ v = encode i

/-- R97: the twelve legal words, which command each is, and the match and mask of each row of the table. -/
def Obligations.LegalWordsAreTheTwelve : Prop :=
  (∀ v : Word, legal v = true ↔
    v ∈ [0x00000001#32, 0x00000002#32, 0x00000003#32, 0x00000004#32, 0x00000005#32, 0x00000006#32, 0x00000007#32,
      0x00000008#32, 0x00000108#32, 0x00000009#32, 0x0000000A#32, 0x0000010A#32])
  ∧ (decode 0x00000008#32 = .ok (.imgExtract .cbuf) ∧ decode 0x00000108#32 = .ok (.imgExtract .obuf)
    ∧ decode 0x0000000A#32 = .ok (.audExtract .cbuf) ∧ decode 0x0000010A#32 = .ok (.audExtract .obuf))
  ∧ (∀ v : Word,
    (v &&& 0xFFFFFFFF#32 = 0x00000001#32 ↔ decode v = .ok .frameEncode)
    ∧ (v &&& 0xFFFFFFFF#32 = 0x00000002#32 ↔ decode v = .ok .frameDecode)
    ∧ (v &&& 0xFFFFFFFF#32 = 0x00000003#32 ↔ decode v = .ok .imgCapacity)
    ∧ (v &&& 0xFFFFFFFF#32 = 0x00000004#32 ↔ decode v = .ok .audCapacity)
    ∧ (v &&& 0xFFFFFFFF#32 = 0x00000005#32 ↔ decode v = .ok .imgValidate)
    ∧ (v &&& 0xFFFFFFFF#32 = 0x00000006#32 ↔ decode v = .ok .audValidate)
    ∧ (v &&& 0xFFFFFFFF#32 = 0x00000007#32 ↔ decode v = .ok .imgEmbed)
    ∧ (v &&& 0xFFFFFEFF#32 = 0x00000008#32 ↔ ∃ src, decode v = .ok (.imgExtract src))
    ∧ (v &&& 0xFFFFFFFF#32 = 0x00000009#32 ↔ decode v = .ok .audEmbed)
    ∧ (v &&& 0xFFFFFEFF#32 = 0x0000000A#32 ↔ ∃ src, decode v = .ok (.audExtract src)))

/-- R96, R191: a word is illegal exactly when RSV is not 0, OP is outside 0x01 to 0x0A, or SRC is 1 on another OP than
0x08 and 0x0A, and it completes with ILLEGAL_COMMAND, whatever the operands hold, changing nothing but STATUS and
ERR_INFO. -/
def Obligations.IllegalWordCompletes : Prop :=
  (∀ v : Word, (∃ e, decode v = .error e) ↔
    (v.toNat / 2 ^ 9 ≠ 0 ∨ ¬(1 ≤ v.toNat % 2 ^ 8 ∧ v.toNat % 2 ^ 8 ≤ 10)
      ∨ (v.toNat / 2 ^ 8 % 2 = 1 ∧ v.toNat % 2 ^ 8 ≠ 8 ∧ v.toNat % 2 ^ 8 ≠ 10)))
  ∧ (∀ s : State, (∃ e, decode s.pending = .error e) →
    completionStep s = .next { s with err := .illegalCommand, errInfo := 0, done := true, phase := .idle })
  ∧ outcomeBits .illegalCommand = 1

/-- A sanity statement: a few words, written out from R97 and R100, decode and assemble as those rules say. -/
def Obligations.WrittenWordsDecode : Prop :=
  decodeTableWord 32 0b00000000000000000000000000000001 = some .frameEncode
  ∧ decodeTableWord 32 0b00000000000000000000000000000101 = some .imgValidate
  ∧ decodeTableWord 32 0b00000000000000000000000100001000 = some (.imgExtract .obuf)
  ∧ decodeTableWord 32 0b00000000000000000000000000001010 = some (.audExtract .cbuf)
  ∧ decodeTableWord 32 0b00000000000000000000000100000001 = none
  ∧ decodeTableWord 32 0b10000000000000000000000000001000 = none
  ∧ assemble "AUD_EXTRACT OBUF" = some 0x0000010A#32
  ∧ assemble "FRAME_ENCODE OBUF" = none

/-- R91: the operands, unsigned and zero-extended, and the base of an extract command. -/
def Obligations.OperandsAreRegisterFields : Prop :=
  ∀ s : State,
    opL s = s.msgLen.toNat
    ∧ opW s = s.imgDim.toNat % 2 ^ 16 ∧ opH s = s.imgDim.toNat / 2 ^ 16
    ∧ opN s = s.audNsamp.toNat
    ∧ (opCh s).toNat = s.audFmt.toNat % 2 ^ 8 ∧ (opSw s).toNat = s.audFmt.toNat / 2 ^ 8 % 2 ^ 8
    ∧ opBits s = s.bitLen.toNat
    ∧ opBase .cbuf = 0x01000000 ∧ opBase .obuf = 0x02000000

/-! ### The sequencer -/

/-- A step runs the decoded command: while BUSY, with the engine's turn next or no turn listed, it is `exec` of the
command PENDING decodes to, with the turn taken off the list. (The list of turns is the model's, log 4.) -/
def Obligations.StepRunsTheDecodedCommand : Prop :=
  ∀ (s : State) (i : Instr), s.cfg.wf = true → s.phase = .busy → decode s.pending = .ok i →
    (s.turns = [] → step s = exec i s)
    ∧ ∀ ts, s.turns = .engine :: ts → step s = exec i { s with turns := ts }

/-- A started command word is what the next step runs (log 5): `withFetchWord` is the effect of a write to CMD, with
the engine's turn next. -/
def Obligations.StartedWordRunsNext : Prop :=
  ∀ (s : State) (w : Nat) (i : Instr), s.cfg.wf = true → w < 2 ^ 32 → decodeTableWord 32 w = some i →
    step (s.withFetchWord 32 w) = exec i (commandStart (BitVec.ofNat 32 w) s)

/-- R41: a host write of `v` to CMD while IDLE starts the command word `v`, and changes nothing else. -/
def Obligations.CmdWriteStartsCommand : Prop :=
  ∀ (s : State) (v : Word) (ts : List Turn), s.cfg.wf = true → s.phase = .idle →
    s.turns = .host (.write 0x0000000C#32 .b32 v) :: ts →
    step s = .next { s with pending := v, phase := .busy, done := false, err := .ok, turns := ts }

/-- R42: the engine's step is enabled exactly when BUSY. While IDLE its turn changes nothing. While BUSY it always
completes: IDLE, DONE, and ERR_INFO 0 unless the outcome is UNSUPPORTED_FORMAT. -/
def Obligations.EngineCompletesExactlyWhenBusy : Prop :=
  ∀ s : State,
    (s.phase = .idle → engineTurn s = .next s)
    ∧ (s.phase = .busy → ∃ t, engineTurn s = .next t ∧ t.phase = .idle ∧ t.done = true
      ∧ (t.err ≠ .unsupportedFormat → t.errInfo = 0)
      ∧ (t.err = .unsupportedFormat → t.errInfo.toNat = s.audFmt.toNat % 2 ^ 16))

/-! ### The commands -/

/-- R116, R117: FRAME_ENCODE. RANGE when the message does not fit MBUF or the frame does not fit BBUF; else BBUF holds
the message's bytes, 0xFF and 0xFE, BIT_LEN is 8L + 16, and nothing else changes. -/
def Obligations.FrameEncodeRule : Prop :=
  decode 0x00000001#32 = .ok .frameEncode
  ∧ ∀ s : State, s.cfg.wf = true →
    ((s.cfg.nMbuf < opL s ∨ s.cfg.nBbuf < opL s + 2) →
      exec .frameEncode s = .next { s with err := .range, errInfo := 0, done := true, phase := .idle })
    ∧ (opL s ≤ s.cfg.nMbuf → opL s + 2 ≤ s.cfg.nBbuf →
      ∃ t, exec .frameEncode s = .next t
        ∧ t = { s with mem := t.mem, bitLen := t.bitLen, err := .ok, errInfo := 0, done := true, phase := .idle }
        ∧ t.bitLen.toNat = 8 * opL s + 16
        ∧ (∀ j, j < opL s → t.byte (bufBase .bbuf + j) = s.byte (bufBase .mbuf + j))
        ∧ t.byte (bufBase .bbuf + opL s) = 0xFF#8
        ∧ t.byte (bufBase .bbuf + (opL s + 1)) = 0xFE#8
        ∧ unchangedOutside s t (bufBase .bbuf) (opL s + 2))

/-- R118, with R70 and R115: FRAME_DECODE. RANGE when BIT_LEN is above 8·N_BBUF; else the result of `deframe` on the
first BIT_LEN bits of BBUF, bit i being bit 7 - (i mod 8) of byte i div 8. -/
def Obligations.FrameDecodeRule : Prop :=
  decode 0x00000002#32 = .ok .frameDecode
  ∧ ∀ s : State, s.cfg.wf = true →
    (8 * s.cfg.nBbuf < opBits s →
      exec .frameDecode s = .next { s with err := .range, errInfo := 0, done := true, phase := .idle })
    ∧ (opBits s ≤ 8 * s.cfg.nBbuf →
      ∃ t bits, exec .frameDecode s = .next t ∧ Decoded s t bits
        ∧ bits.length = opBits s
        ∧ ∀ (i : Nat) (h : i < bits.length), bits[i] = (s.byte (bufBase .bbuf + i / 8)).getLsbD (7 - i % 8))

/-- R131, R132: IMG_CAPACITY and AUD_CAPACITY always complete with OK and write AVAIL_BITS, exactly, and nothing else
but STATUS and ERR_INFO. -/
def Obligations.CapacityRules : Prop :=
  decode 0x00000003#32 = .ok .imgCapacity ∧ decode 0x00000004#32 = .ok .audCapacity
  ∧ ∀ s : State,
    (∃ t, exec .imgCapacity s = .next t
      ∧ t = { s with availBits := t.availBits, err := .ok, errInfo := 0, done := true, phase := .idle }
      ∧ t.availBits.toNat = 3 * opW s * opH s)
    ∧ (∃ t, exec .audCapacity s = .next t
      ∧ t = { s with availBits := t.availBits, err := .ok, errInfo := 0, done := true, phase := .idle }
      ∧ t.availBits.toNat = opN s)

/-- R133, R134: IMG_VALIDATE and AUD_VALIDATE write REQ_BITS and AVAIL_BITS, exactly, on both outcomes, and complete
with OK when 8L + 16 is at most the capacity and with CAPACITY when it is above it. -/
def Obligations.ValidateRules : Prop :=
  decode 0x00000005#32 = .ok .imgValidate ∧ decode 0x00000006#32 = .ok .audValidate
  ∧ ∀ s : State,
    (∃ t, exec .imgValidate s = .next t
      ∧ t = { s with
          reqBits := t.reqBits, availBits := t.availBits
          err := if 8 * opL s + 16 ≤ 3 * opW s * opH s then .ok else .capacity
          errInfo := 0, done := true, phase := .idle }
      ∧ t.reqBits.toNat = 8 * opL s + 16 ∧ t.availBits.toNat = 3 * opW s * opH s)
    ∧ (∃ t, exec .audValidate s = .next t
      ∧ t = { s with
          reqBits := t.reqBits, availBits := t.availBits
          err := if 8 * opL s + 16 ≤ opN s then .ok else .capacity
          errInfo := 0, done := true, phase := .idle }
      ∧ t.reqBits.toNat = 8 * opL s + 16 ∧ t.availBits.toNat = opN s)

/-- R151, R152, with R193 to R196: IMG_EMBED. RANGE, then CAPACITY with its two counts, else the carrier copied to
OBUF with the frame's bits in bit 0 of the first 8L + 16 units, REQ_BITS, AVAIL_BITS, and nothing else. -/
def Obligations.ImgEmbedRule : Prop :=
  decode 0x00000007#32 = .ok .imgEmbed
  ∧ ∀ s : State, s.cfg.wf = true →
    ((s.cfg.nMbuf < opL s ∨ s.cfg.nCbuf < 3 * opW s * opH s) →
      exec .imgEmbed s = .next { s with err := .range, errInfo := 0, done := true, phase := .idle })
    ∧ (opL s ≤ s.cfg.nMbuf → 3 * opW s * opH s ≤ s.cfg.nCbuf → 3 * opW s * opH s < 8 * opL s + 16 →
      ∃ t, exec .imgEmbed s = .next t
        ∧ t = { s with
            reqBits := t.reqBits, availBits := t.availBits
            err := .capacity, errInfo := 0, done := true, phase := .idle }
        ∧ t.reqBits.toNat = 8 * opL s + 16 ∧ t.availBits.toNat = 3 * opW s * opH s)
    ∧ (opL s ≤ s.cfg.nMbuf → 3 * opW s * opH s ≤ s.cfg.nCbuf → 8 * opL s + 16 ≤ 3 * opW s * opH s →
      ∃ t, exec .imgEmbed s = .next t
        ∧ t = { s with
            mem := t.mem, reqBits := t.reqBits, availBits := t.availBits
            err := .ok, errInfo := 0, done := true, phase := .idle }
        ∧ t.reqBits.toNat = 8 * opL s + 16 ∧ t.availBits.toNat = 3 * opW s * opH s
        ∧ (∀ k, k < 3 * opW s * opH s →
          (∀ i, 1 ≤ i → (t.byte (bufBase .obuf + k)).getLsbD i = (s.byte (bufBase .cbuf + k)).getLsbD i)
          ∧ (∀ h : k < (frame (message s)).length, (t.byte (bufBase .obuf + k)).getLsbD 0 = (frame (message s))[k])
          ∧ (8 * opL s + 16 ≤ k → t.byte (bufBase .obuf + k) = s.byte (bufBase .cbuf + k))
          ∧ (t.byte (bufBase .obuf + k)).toNat ≤ (s.byte (bufBase .cbuf + k)).toNat + 1
          ∧ (s.byte (bufBase .cbuf + k)).toNat ≤ (t.byte (bufBase .obuf + k)).toNat + 1)
        ∧ unchangedOutside s t (bufBase .obuf) (3 * opW s * opH s))

/-- R156, with R154 and R115: IMG_EXTRACT. RANGE when the carrier does not fit CBUF; else the result of `deframe` on
bit 0 of each of the 3·W·H units of CBUF or OBUF, in order. -/
def Obligations.ImgExtractRule : Prop :=
  decode 0x00000008#32 = .ok (.imgExtract .cbuf) ∧ decode 0x00000108#32 = .ok (.imgExtract .obuf)
  ∧ ∀ (src : Src) (s : State), s.cfg.wf = true →
    (s.cfg.nCbuf < 3 * opW s * opH s →
      exec (.imgExtract src) s = .next { s with err := .range, errInfo := 0, done := true, phase := .idle })
    ∧ (3 * opW s * opH s ≤ s.cfg.nCbuf →
      ∃ t bits, exec (.imgExtract src) s = .next t ∧ Decoded s t bits
        ∧ bits.length = 3 * opW s * opH s
        ∧ ∀ (k : Nat) (h : k < bits.length), bits[k] = (s.byte (opBase src + k)).getLsbD 0)

/-- R171, R173, R174, with R192 to R196: AUD_EMBED. UNSUPPORTED_FORMAT first, then RANGE, then CAPACITY, else the N
samples copied to OBUF with the frame's bits in bit 0 of the first 8L + 16 samples, REQ_BITS, AVAIL_BITS, the stream
parameters echoed, and nothing else. -/
def Obligations.AudEmbedRule : Prop :=
  decode 0x00000009#32 = .ok .audEmbed
  ∧ ∀ s : State, s.cfg.wf = true →
    (¬((opCh s).toNat = 1 ∧ (opSw s).toNat = 2) →
      ∃ t, exec .audEmbed s = .next t
        ∧ t = { s with err := .unsupportedFormat, errInfo := t.errInfo, done := true, phase := .idle }
        ∧ t.errInfo.toNat = (opSw s).toNat * 2 ^ 8 + (opCh s).toNat)
    ∧ ((opCh s).toNat = 1 → (opSw s).toNat = 2 → (s.cfg.nMbuf < opL s ∨ s.cfg.nCbuf < 2 * opN s) →
      exec .audEmbed s = .next { s with err := .range, errInfo := 0, done := true, phase := .idle })
    ∧ ((opCh s).toNat = 1 → (opSw s).toNat = 2 → opL s ≤ s.cfg.nMbuf → 2 * opN s ≤ s.cfg.nCbuf →
      opN s < 8 * opL s + 16 →
      ∃ t, exec .audEmbed s = .next t
        ∧ t = { s with
            reqBits := t.reqBits, availBits := t.availBits
            err := .capacity, errInfo := 0, done := true, phase := .idle }
        ∧ t.reqBits.toNat = 8 * opL s + 16 ∧ t.availBits.toNat = opN s)
    ∧ ((opCh s).toNat = 1 → (opSw s).toNat = 2 → opL s ≤ s.cfg.nMbuf → 2 * opN s ≤ s.cfg.nCbuf →
      8 * opL s + 16 ≤ opN s →
      ∃ t, exec .audEmbed s = .next t
        ∧ t = { s with
            mem := t.mem, reqBits := t.reqBits, availBits := t.availBits
            outAudFmt := s.audFmt, outAudRate := s.audRate, outAudNsamp := s.audNsamp
            err := .ok, errInfo := 0, done := true, phase := .idle }
        ∧ t.reqBits.toNat = 8 * opL s + 16 ∧ t.availBits.toNat = opN s
        ∧ (∀ i, i < opN s →
          (∀ n, 1 ≤ n → (audSample t (bufBase .obuf) i).getLsbD n = (audSample s (bufBase .cbuf) i).getLsbD n)
          ∧ (∀ h : i < (frame (message s)).length,
            (audSample t (bufBase .obuf) i).getLsbD 0 = (frame (message s))[i])
          ∧ (8 * opL s + 16 ≤ i → audSample t (bufBase .obuf) i = audSample s (bufBase .cbuf) i))
        ∧ unchangedOutside s t (bufBase .obuf) (2 * opN s))

/-- R176, with R175 and R115: AUD_EXTRACT. UNSUPPORTED_FORMAT first, then RANGE, else the result of `deframe` on bit 0
of the low byte of each of the N samples of CBUF or OBUF, in order. -/
def Obligations.AudExtractRule : Prop :=
  decode 0x0000000A#32 = .ok (.audExtract .cbuf) ∧ decode 0x0000010A#32 = .ok (.audExtract .obuf)
  ∧ ∀ (src : Src) (s : State), s.cfg.wf = true →
    (¬((opCh s).toNat = 1 ∧ (opSw s).toNat = 2) →
      ∃ t, exec (.audExtract src) s = .next t
        ∧ t = { s with err := .unsupportedFormat, errInfo := t.errInfo, done := true, phase := .idle }
        ∧ t.errInfo.toNat = (opSw s).toNat * 2 ^ 8 + (opCh s).toNat)
    ∧ ((opCh s).toNat = 1 → (opSw s).toNat = 2 → s.cfg.nCbuf < 2 * opN s →
      exec (.audExtract src) s = .next { s with err := .range, errInfo := 0, done := true, phase := .idle })
    ∧ ((opCh s).toNat = 1 → (opSw s).toNat = 2 → 2 * opN s ≤ s.cfg.nCbuf →
      ∃ t bits, exec (.audExtract src) s = .next t ∧ Decoded s t bits
        ∧ bits.length = opN s
        ∧ ∀ (i : Nat) (h : i < bits.length), bits[i] = (s.byte (opBase src + 2 * i)).getLsbD 0)

/-! ### Rules over all commands -/

/-- R192 to R194, R196: which outcome a completion step ends with. Exactly one is reported, the first that applies of
ILLEGAL_COMMAND, UNSUPPORTED_FORMAT, RANGE and CAPACITY, and OK when none does. -/
def Obligations.OutcomeIsTheFirstThatApplies : Prop :=
  ∀ s t : State, completionStep s = .next t →
    let runs (i : Instr) : Prop := decode s.pending = .ok i
    let runsImgExtract : Prop := runs (.imgExtract .cbuf) ∨ runs (.imgExtract .obuf)
    let runsAudExtract : Prop := runs (.audExtract .cbuf) ∨ runs (.audExtract .obuf)
    let illegalWord : Prop := ∀ i, ¬runs i
    let badFormat : Prop := (runs .audEmbed ∨ runsAudExtract) ∧ ¬((opCh s).toNat = 1 ∧ (opSw s).toNat = 2)
    let outOfRange : Prop :=
      (runs .frameEncode ∧ (s.cfg.nMbuf < opL s ∨ s.cfg.nBbuf < opL s + 2))
      ∨ (runs .frameDecode ∧ 8 * s.cfg.nBbuf < opBits s)
      ∨ (runs .imgEmbed ∧ (s.cfg.nMbuf < opL s ∨ s.cfg.nCbuf < 3 * opW s * opH s))
      ∨ (runsImgExtract ∧ s.cfg.nCbuf < 3 * opW s * opH s)
      ∨ (runs .audEmbed ∧ (s.cfg.nMbuf < opL s ∨ s.cfg.nCbuf < 2 * opN s))
      ∨ (runsAudExtract ∧ s.cfg.nCbuf < 2 * opN s)
    let tooBig : Prop :=
      ((runs .imgValidate ∨ runs .imgEmbed) ∧ 3 * opW s * opH s < 8 * opL s + 16)
      ∨ ((runs .audValidate ∨ runs .audEmbed) ∧ opN s < 8 * opL s + 16)
    (t.err = .illegalCommand ↔ illegalWord)
    ∧ (t.err = .unsupportedFormat ↔ badFormat)
    ∧ (t.err = .range ↔ ¬badFormat ∧ outOfRange)
    ∧ (t.err = .capacity ↔ ¬badFormat ∧ ¬outOfRange ∧ tooBig
      ∧ t.reqBits.toNat = 8 * opL s + 16
      ∧ t.availBits.toNat = if runs .imgValidate ∨ runs .imgEmbed then 3 * opW s * opH s else opN s)
    ∧ (t.err = .ok ↔ ¬illegalWord ∧ ¬badFormat ∧ ¬outOfRange ∧ ¬tooBig)

/-- R199: errors are precise. A completion step that ends in an error, that of an illegal word among them, changes
STATUS and ERR_INFO, for CAPACITY also REQ_BITS and AVAIL_BITS, and nothing else. -/
def Obligations.ErrorsArePrecise : Prop :=
  ∀ s t : State, completionStep s = .next t → t.err ≠ .ok →
    t = { s with
      err := t.err, errInfo := t.errInfo, done := true, phase := .idle
      reqBits := t.reqBits, availBits := t.availBits }
    ∧ (t.err ≠ .capacity → t.reqBits = s.reqBits ∧ t.availBits = s.availBits)
    ∧ (t.err ≠ .unsupportedFormat → t.errInfo = 0)

/-- The engine never writes CBUF or MBUF (10_state.md R52), and every byte it writes lies in an implemented buffer
(20_memory.md R75). -/
def Obligations.EngineWritesOnlyOutputBuffers : Prop :=
  ∀ (i : Instr) (s t : State), s.cfg.wf = true → exec i s = .next t → ∀ a,
    t.byte a ≠ s.byte a →
      inBuffer s.cfg .obuf a = true ∨ inBuffer s.cfg .bbuf a = true ∨ inBuffer s.cfg .tbuf a = true

/-- What no command writes: PENDING, CTRL, WERR, the parameter registers (BIT_LEN only by FRAME_ENCODE), the sizes and
the surroundings; and each group of result registers is written only by its own commands. -/
def Obligations.EachCommandWritesOnlyItsOwn : Prop :=
  ∀ (i : Instr) (s t : State), exec i s = .next t →
    (t.cfg = s.cfg ∧ t.pending = s.pending ∧ t.ie = s.ie ∧ t.werr = s.werr ∧ t.msgLen = s.msgLen
      ∧ t.imgDim = s.imgDim ∧ t.audNsamp = s.audNsamp ∧ t.audFmt = s.audFmt ∧ t.audRate = s.audRate
      ∧ t.epoch = s.epoch ∧ t.draws = s.draws ∧ t.turns = s.turns ∧ t.lastRead = s.lastRead)
    ∧ (i ≠ .frameEncode → t.bitLen = s.bitLen)
    ∧ ((i = .frameEncode ∨ i = .frameDecode ∨ i = .imgCapacity ∨ i = .audCapacity ∨ (∃ src, i = .imgExtract src)
      ∨ (∃ src, i = .audExtract src)) → t.reqBits = s.reqBits)
    ∧ ((i = .frameEncode ∨ i = .frameDecode ∨ (∃ src, i = .imgExtract src) ∨ (∃ src, i = .audExtract src)) →
      t.availBits = s.availBits)
    ∧ ((i ≠ .frameDecode ∧ (∀ src, i ≠ .imgExtract src) ∧ ∀ src, i ≠ .audExtract src) →
      t.outLen = s.outLen ∧ t.decInfo = s.decInfo ∧ t.payloadBits = s.payloadBits)
    ∧ (i ≠ .audEmbed →
      t.outAudFmt = s.outAudFmt ∧ t.outAudRate = s.outAudRate ∧ t.outAudNsamp = s.outAudNsamp)
    ∧ ((i = .imgCapacity ∨ i = .audCapacity ∨ i = .imgValidate ∨ i = .audValidate) → t.mem = s.mem)

/-- "No command reads a flag" (10_state.md R50): with any other values of BUSY, DONE, WERR, ERR, IE, PENDING and
DEC_INFO before it, a command ends the same but for what of these it does not write. -/
def Obligations.CommandsReadNoFlag : Prop :=
  ∀ (i : Instr) (s t : State) (p : Phase) (d w e : Bool) (c : OutcomeCode) (v dec : Word), exec i s = .next t →
    exec i { s with phase := p, done := d, werr := w, ie := e, err := c, pending := v, decInfo := dec } =
      .next { t with
        werr := w, ie := e, pending := v
        decInfo := if (t.err = .ok ∧ (i = .frameDecode ∨ i = .imgExtract .cbuf ∨ i = .imgExtract .obuf
          ∨ i = .audExtract .cbuf ∨ i = .audExtract .obuf)) then t.decInfo else dec }

/-! ### Framing, extraction and capacity -/

/-- R112, with R110 and R111: the frame of a message, bit by bit. -/
def Obligations.FrameIsMessageThenTerminator : Prop :=
  ∀ msg : List Byte, ∃ hl : (frame msg).length = 8 * msg.length + 16,
    (∀ (j i : Nat) (hj : j < msg.length) (hi : i < 8), (frame msg)[8 * j + i] = (msg[j]).getLsbD (7 - i))
    ∧ (∀ (i : Nat) (hi : i < 15), (frame msg)[8 * msg.length + i] = true)
    ∧ (frame msg)[8 * msg.length + 15] = false

/-- R113: `findTerm` is the least index at which TERM stands whole, and none when it stands nowhere. -/
def Obligations.FindTermIsLeastMatch : Prop :=
  ∀ s : List Bool,
    (∀ i, findTerm s = some i ↔
      (i + 16 ≤ s.length ∧ (s.drop i).take 16 = List.replicate 15 true ++ [false]
        ∧ ∀ j, j < i → (s.drop j).take 16 ≠ List.replicate 15 true ++ [false]))
    ∧ (findTerm s = none ↔
      ∀ i, i + 16 ≤ s.length → (s.drop i).take 16 ≠ List.replicate 15 true ++ [false])

/-- R114, with the packing of R110: the payload is what stands before the first match, or everything, and its whole
runs of 8 bits are the bytes, bit 7 first. -/
def Obligations.DeframePacksThePayload : Prop :=
  ∀ s : List Bool,
    (deframe s).found = (findTerm s).isSome
    ∧ (deframe s).payload = (findTerm s).getD s.length
    ∧ ∃ (hl : (deframe s).out.length = (deframe s).payload / 8) (hp : (deframe s).payload ≤ s.length),
      ∀ (j i : Nat) (hj : j < (deframe s).payload / 8) (hi : i < 8),
        ((deframe s).out[j]).getLsbD (7 - i) = s[8 * j + i]

/-- R119: decoding a frame, whatever follows it, gives the message exactly when its own bits do not contain TERM, and
the bytes before their first match when they do. -/
def Obligations.DeframeOfFrame : Prop :=
  ∀ (msg : List Byte) (x : List Bool),
    deframe (frame msg ++ x) =
      { out := msg.take ((findTerm (bitsOf msg)).getD (8 * msg.length) / 8)
        found := true
        payload := (findTerm (bitsOf msg)).getD (8 * msg.length) }
    ∧ ((deframe (frame msg ++ x)).out = msg ↔ findTerm (bitsOf msg) = none)

/-- R120: the bounds of a decode, and that nothing after index p + 15 matters once TERM is found. -/
def Obligations.DeframeBounds : Prop :=
  ∀ s : List Bool,
    (deframe s).payload ≤ s.length
    ∧ (deframe s).out.length = (deframe s).payload / 8 ∧ (deframe s).payload / 8 ≤ s.length / 8
    ∧ ((deframe s).found = false → (deframe s).payload = s.length)
    ∧ ((deframe s).found = true →
      (deframe s).payload + 16 ≤ s.length
      ∧ (s.drop (deframe s).payload).take 16 = List.replicate 15 true ++ [false]
      ∧ ∀ x : List Bool, deframe (s.take ((deframe s).payload + 16) ++ x) = deframe s)

/-- R157: the image round trip. After an IMG_EMBED that completes with OK, an IMG_EXTRACT OBUF on any state with the
same sizes and IMG_DIM whose OBUF carrier is the one embedded finds TERM and gives the message up to its own first
TERM: all of it when its bits do not contain TERM. -/
def Obligations.ImageRoundTrip : Prop :=
  ∀ s t u : State, s.cfg.wf = true → exec .imgEmbed s = .next t → t.err = .ok →
    u.cfg = t.cfg → u.imgDim = t.imgDim →
    (∀ k, k < 3 * opW s * opH s → u.byte (bufBase .obuf + k) = t.byte (bufBase .obuf + k)) →
    ∃ r, exec (.imgExtract .obuf) u = .next r ∧ r.err = .ok ∧ termFound r = true
      ∧ r.payloadBits.toNat = (findTerm (bitsOf (message s))).getD (8 * opL s)
      ∧ r.outLen.toNat = r.payloadBits.toNat / 8
      ∧ (∀ j, j < r.payloadBits.toNat / 8 → r.byte (bufBase .tbuf + j) = s.byte (bufBase .mbuf + j))
      ∧ (findTerm (bitsOf (message s)) = none →
        r.outLen.toNat = opL s ∧ ∀ j, j < opL s → r.byte (bufBase .tbuf + j) = s.byte (bufBase .mbuf + j))
      ∧ (findTerm (bitsOf (message s)) ≠ none → r.payloadBits.toNat < 8 * opL s)

/-- R177: the audio round trip, likewise, with AUD_NSAMP and the format unchanged. -/
def Obligations.AudioRoundTrip : Prop :=
  ∀ s t u : State, s.cfg.wf = true → exec .audEmbed s = .next t → t.err = .ok →
    u.cfg = t.cfg → u.audNsamp = t.audNsamp → u.audFmt = t.audFmt →
    (∀ k, k < 2 * opN s → u.byte (bufBase .obuf + k) = t.byte (bufBase .obuf + k)) →
    ∃ r, exec (.audExtract .obuf) u = .next r ∧ r.err = .ok ∧ termFound r = true
      ∧ r.payloadBits.toNat = (findTerm (bitsOf (message s))).getD (8 * opL s)
      ∧ r.outLen.toNat = r.payloadBits.toNat / 8
      ∧ (∀ j, j < r.payloadBits.toNat / 8 → r.byte (bufBase .tbuf + j) = s.byte (bufBase .mbuf + j))
      ∧ (findTerm (bitsOf (message s)) = none →
        r.outLen.toNat = opL s ∧ ∀ j, j < opL s → r.byte (bufBase .tbuf + j) = s.byte (bufBase .mbuf + j))
      ∧ (findTerm (bitsOf (message s)) ≠ none → r.payloadBits.toNat < 8 * opL s)

/-- R170: on signed values, replacing a sample's LSB gives 2·floor(s/2) + b. The sample moves by at most 1, keeps its
sign, and every other bit is unaffected. -/
def Obligations.SignedLsbSubstitution : Prop :=
  ∀ (v : BitVec 16) (b : Bool),
    (setLsb v b).toInt = 2 * (v.toInt / 2) + (if b then 1 else 0)
    ∧ (setLsb v b).toInt ≤ v.toInt + 1 ∧ v.toInt ≤ (setLsb v b).toInt + 1
    ∧ ((setLsb v b).toInt < 0 ↔ v.toInt < 0)
    ∧ (setLsb v b).getLsbD 0 = b
    ∧ ∀ n, 1 ≤ n → (setLsb v b).getLsbD n = v.getLsbD n

/-- R67, R68, R154: unit 3·(y·W + x) + c is channel c of the pixel in column x and row y, and the LSB stream of a
carrier holds its bit 0 there. -/
def Obligations.ImageUnitsInRasterOrder : Prop :=
  ∀ (s : State) (base w h x y c : Nat), x < w → y < h → c < 3 →
    3 * (y * w + x) + c < capImg w h
    ∧ (3 * (y * w + x) + c) % 3 = c
    ∧ (3 * (y * w + x) + c) / 3 % w = x ∧ (3 * (y * w + x) + c) / 3 / w = y
    ∧ (lsbImg s base (capImg w h))[3 * (y * w + x) + c]? = some ((s.byte (base + (3 * (y * w + x) + c))).getLsbD 0)

/-- A message of L bytes fits a capacity c exactly when c ≥ 16 and L ≤ (c - 16) div 8 (41_capacity.md R135). -/
def Obligations.CapacityBoundary : Prop :=
  ∀ len c : Nat, required len ≤ c ↔ (16 ≤ c ∧ len ≤ (c - 16) / 8)

/-- The high byte of a sample is never read by AUD_EXTRACT (43_audio.md R175, R176): two states that agree on the
registers it reads, on the sizes and on the low bytes of the scanned samples give the same result. -/
def Obligations.AudExtractIgnoresHighBytes : Prop :=
  ∀ (src : Src) (s u s' u' : State), exec (.audExtract src) s = .next s' → exec (.audExtract src) u = .next u' →
    u.cfg = s.cfg → u.audNsamp = s.audNsamp → u.audFmt = s.audFmt →
    (∀ i, i < opN s → u.byte (opBase src + 2 * i) = s.byte (opBase src + 2 * i)) →
    u'.err = s'.err ∧ u'.errInfo = s'.errInfo
    ∧ (s'.err = .ok → s.cfg.wf = true →
      u'.outLen = s'.outLen ∧ u'.decInfo = s'.decInfo ∧ u'.payloadBits = s'.payloadBits
      ∧ ∀ j, j < s'.outLen.toNat → u'.byte (bufBase .tbuf + j) = s'.byte (bufBase .tbuf + j))

/-! ### The host port -/

/-- The accesses the map has, written with the addresses of R66 and the sizes of R52 as numbers and sizes of the part:
an aligned 32-bit access of the register window (R63), or a naturally aligned access wholly inside an implemented
buffer (R64). Every other access is a bus error. The last clause says which buffer, and which of its bytes, each of
the five windows is, and that the commands' own map (`bufBase`, `bufSize`) is the same. -/
def Obligations.BusErrorsAreExactlyTheIllegalAccesses : Prop :=
  ∀ (s : State) (address : Word) (size : Size) (v : Word) (ts : List Turn), s.cfg.wf = true →
    let inside (base bytes : Nat) : Prop :=
      base ≤ address.toNat ∧ address.toNat + sizeBytes size ≤ base + bytes ∧ address.toNat % sizeBytes size = 0
    let mappedAccess : Prop :=
      (address.toNat < 0x100 ∧ size = .b32 ∧ address.toNat % 4 = 0)
      ∨ inside 0x01000000 s.cfg.nCbuf ∨ inside 0x02000000 s.cfg.nCbuf ∨ inside 0x03000000 s.cfg.nMbuf
      ∨ inside 0x04000000 s.cfg.nBbuf ∨ inside 0x05000000 s.cfg.nTbuf
    let window (b : Buf) (base bytes : Nat) : Prop :=
      bufBase b = base ∧ bufSize s.cfg b = bytes
      ∧ ∀ off, target s.cfg address size = some (.buffer b off) ↔ inside base bytes ∧ address.toNat = base + off
    (¬mappedAccess →
      step { s with turns := .host (.read address size) :: ts } = .fault (.busError (.read address size))
      ∧ step { s with turns := .host (.write address size v) :: ts } = .fault (.busError (.write address size v)))
    ∧ (mappedAccess →
      (∃ t, step { s with turns := .host (.read address size) :: ts } = .next t)
      ∧ ∃ t, step { s with turns := .host (.write address size v) :: ts } = .next t)
    ∧ (window .cbuf 0x01000000 s.cfg.nCbuf ∧ window .obuf 0x02000000 s.cfg.nCbuf
      ∧ window .mbuf 0x03000000 s.cfg.nMbuf ∧ window .bbuf 0x04000000 s.cfg.nBbuf
      ∧ window .tbuf 0x05000000 s.cfg.nTbuf)

/-- R65: a bus error changes no state. The state the engine goes on from differs only in that the host's turn is
over, so a running command still completes. (`afterBusError` is the model's, log 6.) -/
def Obligations.BusErrorChangesNothing : Prop :=
  ∀ (s : State) (a : Access) (ts : List Turn) (f : Fault), s.turns = .host a :: ts → step s = .fault f →
    f = .busError a ∧ stepOn s = { s with turns := ts } ∧ afterBusError s = { s with turns := ts }

/-- R23 to R48, register by register: a 32-bit read at the offset R23 gives a register returns the state that register
holds and changes nothing, in either PHASE for the registers that are no output location, and while IDLE for the
others. STATUS reads BUSY, DONE, WERR and the code of ERR (R190) at their bits. The first two clauses say the same of
the model's own map. (Where the data of a read stands is the model's, log 10.) -/
def Obligations.RegisterReads : Prop :=
  (∀ (s : State) (r : Reg) (ts : List Turn), s.cfg.wf = true → (s.phase = .idle ∨ isOutput (.reg r) = false) →
    s.turns = .host (.read (BitVec.ofNat 32 (regOffset r)) .b32) :: ts →
    step s = .next { s with lastRead := some (readReg r s), turns := ts })
  ∧ (∀ s : State, readReg .id s = 0x4C534231#32 ∧ readReg .cmd s = s.pending
    ∧ (readReg .ctrl s).toNat = s.ie.toNat
    ∧ (readReg .status s).toNat = (if s.phase = .busy then 1 else 0) + 2 * s.done.toNat + 4 * s.werr.toNat
      + 256 * (outcomeBits s.err).toNat
    ∧ (readReg .reqBitsLo s).toNat + 2 ^ 32 * (readReg .reqBitsHi s).toNat = s.reqBits.toNat
    ∧ (readReg .availBitsLo s).toNat + 2 ^ 32 * (readReg .availBitsHi s).toNat = s.availBits.toNat)
  ∧ (∀ (s : State) (ts : List Turn), s.cfg.wf = true →
    let reads (address v : Word) : Prop :=
      step { s with turns := .host (.read address .b32) :: ts } = .next { s with lastRead := some v, turns := ts }
    (reads 0x00000000#32 0x4C534231#32
      ∧ (∃ v, reads 0x00000004#32 v ∧ v.toNat = s.ie.toNat)
      ∧ (∃ v, reads 0x00000008#32 v
        ∧ v.toNat = (if s.phase = .busy then 1 else 0) + 2 * s.done.toNat + 4 * s.werr.toNat
          + 256 * (if s.err = .illegalCommand then 1 else if s.err = .unsupportedFormat then 2
            else if s.err = .range then 3 else if s.err = .capacity then 4 else 0))
      ∧ reads 0x0000000C#32 s.pending
      ∧ reads 0x00000010#32 s.msgLen
      ∧ reads 0x00000014#32 s.imgDim
      ∧ reads 0x00000018#32 s.audNsamp
      ∧ reads 0x0000001C#32 s.audFmt
      ∧ reads 0x00000020#32 s.audRate)
    ∧ (s.phase = .idle →
      reads 0x00000024#32 s.bitLen
      ∧ reads 0x00000028#32 (s.reqBits.extractLsb' 0 32)
      ∧ reads 0x0000002C#32 (s.reqBits.extractLsb' 32 32)
      ∧ reads 0x00000030#32 (s.availBits.extractLsb' 0 32)
      ∧ reads 0x00000034#32 (s.availBits.extractLsb' 32 32)
      ∧ reads 0x00000038#32 s.outLen
      ∧ reads 0x0000003C#32 s.decInfo
      ∧ reads 0x00000040#32 s.payloadBits
      ∧ reads 0x00000044#32 s.outAudFmt
      ∧ reads 0x00000048#32 s.outAudRate
      ∧ reads 0x0000004C#32 s.outAudNsamp
      ∧ reads 0x00000050#32 s.errInfo))

/-- R49: a reserved offset of the register window reads 0 in either PHASE, and a write to it while IDLE is ignored.
(Where the data of a read stands is the model's, log 10.) -/
def Obligations.ReservedOffsets : Prop :=
  ∀ (s : State) (k : Nat) (v : Word) (ts : List Turn), s.cfg.wf = true → 0x54 ≤ 4 * k → 4 * k ≤ 0xFC →
    step { s with turns := .host (.read (BitVec.ofNat 32 (4 * k)) .b32) :: ts } =
      .next { s with lastRead := some 0, turns := ts }
    ∧ (s.phase = .idle →
      step { s with turns := .host (.write (BitVec.ofNat 32 (4 * k)) .b32 v) :: ts } = .next { s with turns := ts })

/-- R25, R26: the host writes CTRL and STATUS in either PHASE; CTRL takes bit 0, STATUS clears DONE and WERR where it
is written 1, and nothing else changes. -/
def Obligations.ControlAndStatusWrites : Prop :=
  ∀ (s : State) (v : Word) (ts : List Turn), s.cfg.wf = true →
    step { s with turns := .host (.write 0x00000004#32 .b32 v) :: ts } =
      .next { s with ie := v.getLsbD 0, turns := ts }
    ∧ step { s with turns := .host (.write 0x00000008#32 .b32 v) :: ts } =
      .next { s with
        done := if v.getLsbD 1 then false else s.done, werr := if v.getLsbD 2 then false else s.werr, turns := ts }

/-- Writes to the parameter registers while IDLE store any 32-bit value (10_state.md R32 to R37), and writes to
read-only registers store nothing (20_memory.md R72). -/
def Obligations.IdleRegisterWrites : Prop :=
  ∀ (s : State) (v : Word) (ts : List Turn), s.cfg.wf = true → s.phase = .idle →
    step { s with turns := .host (.write 0x00000010#32 .b32 v) :: ts } = .next { s with msgLen := v, turns := ts }
    ∧ step { s with turns := .host (.write 0x00000014#32 .b32 v) :: ts } = .next { s with imgDim := v, turns := ts }
    ∧ step { s with turns := .host (.write 0x00000018#32 .b32 v) :: ts } = .next { s with audNsamp := v, turns := ts }
    ∧ step { s with turns := .host (.write 0x0000001C#32 .b32 v) :: ts } = .next { s with audFmt := v, turns := ts }
    ∧ step { s with turns := .host (.write 0x00000020#32 .b32 v) :: ts } = .next { s with audRate := v, turns := ts }
    ∧ step { s with turns := .host (.write 0x00000024#32 .b32 v) :: ts } = .next { s with bitLen := v, turns := ts }
    ∧ ∀ k, (k = 0 ∨ (10 ≤ k ∧ k ≤ 20)) →
      step { s with turns := .host (.write (BitVec.ofNat 32 (4 * k)) .b32 v) :: ts } = .next { s with turns := ts }

/-- R73: while BUSY a host write that is no bus error and goes neither to CTRL nor to STATUS stores nothing and sets
WERR, wherever it goes. A write to CTRL or STATUS takes effect as when IDLE. A bus error stays one. -/
def Obligations.BusyWritesAreDropped : Prop :=
  ∀ (s : State) (address : Word) (size : Size) (v : Word) (ts : List Turn), s.cfg.wf = true → s.phase = .busy →
    s.turns = .host (.write address size v) :: ts →
    (target s.cfg address size ≠ none → address ≠ 0x00000004#32 → address ≠ 0x00000008#32 →
      step s = .next { s with werr := true, turns := ts })
    ∧ (address = 0x00000004#32 → size = .b32 → step s = .next { s with ie := v.getLsbD 0, turns := ts })
    ∧ (address = 0x00000008#32 → size = .b32 →
      step s = .next { s with
        done := if v.getLsbD 1 then false else s.done, werr := if v.getLsbD 2 then false else s.werr, turns := ts })
    ∧ (target s.cfg address size = none → step s = .fault (.busError (.write address size v)))

/-- R74: while BUSY a read of an output location returns a free value, drawn anew at each read, and changes nothing of
the engine; a read of CBUF or MBUF returns the stored bytes. The draw's form is the model's and not R74's (log 3,
DESIGN CHOICE of form): the data is the low bits, of the access's width, of the opaque `Config.freeRead` at the count of
draws, so it is no function of what is stored, and the count goes on. Nothing is stated of its value. That the bits of
the 32-bit data above those of a narrow read are 0, in both clauses, is the model's too (log 18, DEDUCED). -/
def Obligations.BusyReads : Prop :=
  (∀ (s : State) (address : Word) (size : Size) (tg : Target) (ts : List Turn), s.cfg.wf = true → s.phase = .busy →
    target s.cfg address size = some tg → isOutput tg = true → s.turns = .host (.read address size) :: ts →
    ∃ w, step s = .next { s with lastRead := some w, draws := s.draws + 1, turns := ts }
      ∧ w.toNat = (Config.freeRead s.draws).toNat % 256 ^ sizeBytes size)
  ∧ (∀ (s : State) (address : Word) (size : Size) (b : Buf) (off : Nat) (ts : List Turn), s.cfg.wf = true →
    (b = .cbuf ∨ b = .mbuf) → target s.cfg address size = some (.buffer b off) →
    s.turns = .host (.read address size) :: ts →
    ∃ w, step s = .next { s with lastRead := some w, turns := ts }
      ∧ (∀ i, i < sizeBytes size → w.extractLsb' (8 * i) 8 = s.byte (address.toNat + i))
      ∧ w.toNat < 256 ^ sizeBytes size)
  ∧ (∀ tg : Target, isOutput tg = true ↔
    (∃ off, tg = .buffer .obuf off ∨ tg = .buffer .bbuf off ∨ tg = .buffer .tbuf off)
    ∨ ∃ r, tg = .reg r ∧ 0x24 ≤ regOffset r)

/-- R60, R62: a buffer write of n bytes while IDLE puts bits 8i+7:8i of the value in byte i and changes no other byte;
a buffer read of n bytes while IDLE gives the value whose bits 8i+7:8i are byte i. The last clause, that the bits of
the 32-bit data above those of a narrow read are 0, is the model's and not of R60 or R62 (log 18, DEDUCED). -/
def Obligations.BufferAccessesAreLittleEndian : Prop :=
  ∀ (s : State) (address : Word) (size : Size) (v : Word) (b : Buf) (off : Nat) (ts : List Turn), s.cfg.wf = true →
    s.phase = .idle → target s.cfg address size = some (.buffer b off) →
    (∃ t, step { s with turns := .host (.write address size v) :: ts } = .next t
      ∧ t = { s with mem := t.mem, turns := ts }
      ∧ (∀ i, i < sizeBytes size → t.byte (address.toNat + i) = v.extractLsb' (8 * i) 8)
      ∧ unchangedOutside s t address.toNat (sizeBytes size))
    ∧ (∃ t w, step { s with turns := .host (.read address size) :: ts } = .next t
      ∧ t = { s with lastRead := some w, turns := ts }
      ∧ (∀ i, i < sizeBytes size → w.extractLsb' (8 * i) 8 = s.byte (address.toNat + i))
      ∧ w.toNat < 256 ^ sizeBytes size)

/-- The five buffers are disjoint (R66, R76). -/
def Obligations.BuffersAreDisjoint : Prop :=
  ∀ (c : Config) (b b' : Buf) (a : Nat), c.wf = true → inBuffer c b a = true → inBuffer c b' a = true → b = b'

/-! ### Interrupt, reset and whole-machine rules -/

/-- R200, R201: IRQ is DONE and IE. Every completion raises it exactly when IE is 1, whatever the outcome; a write of
STATUS with bit 1 set, a write of CTRL with bit 0 clear, a command start and reset clear it. -/
def Obligations.IrqFollowsDoneAndEnable : Prop :=
  (∀ s : State, irq s = (s.done && s.ie))
  ∧ (∀ s t : State, completionStep s = .next t → t.done = true ∧ t.ie = s.ie ∧ irq t = s.ie)
  ∧ (∀ (s : State) (v : Word), v.getLsbD 1 = true → irq (writeStatus v s) = false)
  ∧ (∀ (s : State) (v : Word), irq (writeCtrl v s) = (s.done && v.getLsbD 0))
  ∧ (∀ (s : State) (v : Word), irq (commandStart v s) = false)
  ∧ (∀ s : State, irq (resetEngine s) = false)

/-- The reset state of a part of any sizes, as the host reads it: every register of the map at its reset value, the
reserved offsets 0 and IRQ deasserted, which are R221's. The last clause, that a buffer byte is the free value
`Config.freeByte` numbered 0 and by its address, is the model's form of R221's "unspecified" (log 2, DESIGN CHOICE):
the number 0 is a name, and nothing is stated of the value. -/
def Obligations.ResetRegisterValues : Prop :=
  ∀ c : Config,
    (State.resetOf c).phase = .idle ∧ (State.resetOf c).pending = 0
    ∧ (∀ r, readReg r (State.resetOf c) = if r = .id then 0x4C534231#32 else 0)
    ∧ (∀ size, readTarget .reserved size (State.resetOf c) = 0)
    ∧ irq (State.resetOf c) = false
    ∧ (∀ a, (State.resetOf c).byte a = Config.freeByte 0 a)

/-- R220, R222, R223: reset is one step in either PHASE. It ends IDLE with every register at its reset value and every
buffer byte drawn anew; a running command is abandoned with no completion. (The list of turns and the numbering of
draws are the model's, logs 2, 4 and 11.) -/
def Obligations.ResetInEitherPhase : Prop :=
  ∀ (s : State) (ts : List Turn), s.cfg.wf = true → s.turns = .reset :: ts →
    ∃ t, step s = .next t ∧ t.phase = .idle ∧ t.pending = 0 ∧ t.done = false ∧ irq t = false
      ∧ (∀ r, readReg r t = if r = .id then 0x4C534231#32 else 0)
      ∧ (∀ a, t.byte a = Config.freeByte (s.epoch + 1) a)
      ∧ t.cfg = s.cfg ∧ t.turns = ts

/-- R226: the commands straight after reset, on a part of any sizes. -/
def Obligations.CommandsStraightAfterReset : Prop :=
  ∀ c : Config, c.wf = true →
    (∃ t, exec .frameEncode (State.resetOf c) = .next t ∧ t.err = .ok ∧ t.byte (bufBase .bbuf) = 0xFF#8
      ∧ t.byte (bufBase .bbuf + 1) = 0xFE#8 ∧ t.bitLen = 16)
    ∧ (∃ t, exec .imgEmbed (State.resetOf c) = .next t ∧ t.err = .capacity)
    ∧ (∃ t, exec .audEmbed (State.resetOf c) = .next t ∧ t.err = .unsupportedFormat)
    ∧ (∀ src, ∃ t, exec (.audExtract src) (State.resetOf c) = .next t ∧ t.err = .unsupportedFormat)
    ∧ (∃ t, exec .frameDecode (State.resetOf c) = .next t ∧ t.err = .ok ∧ t.outLen = 0)
    ∧ (∀ src, ∃ t, exec (.imgExtract src) (State.resetOf c) = .next t ∧ t.err = .ok ∧ t.outLen = 0)

/-- While BUSY no host turn changes what a command reads (10_state.md R42, 20_memory.md R73): the parameter registers,
PENDING and every buffer byte stay, and the engine stays BUSY. -/
def Obligations.BusyFreezesInputs : Prop :=
  ∀ (s t : State) (a : Access) (ts : List Turn), s.phase = .busy → s.turns = .host a :: ts → step s = .next t →
    t.phase = .busy ∧ t.pending = s.pending ∧ t.msgLen = s.msgLen ∧ t.imgDim = s.imgDim ∧ t.audNsamp = s.audNsamp
    ∧ t.audFmt = s.audFmt ∧ t.audRate = s.audRate ∧ t.bitLen = s.bitLen ∧ t.mem = s.mem ∧ t.epoch = s.epoch
    ∧ t.cfg = s.cfg

/-- R29, R73: WERR is sticky. Only a host write of STATUS with bit 2 set and reset clear it, and only a dropped write
sets it: one made while BUSY that is no bus error and goes neither to CTRL nor to STATUS. -/
def Obligations.WerrIsSticky : Prop :=
  ∀ s t : State, step s = .next t →
    (s.werr = true → t.werr = false →
      (∃ v ts, s.turns = .host (.write 0x00000008#32 .b32 v) :: ts ∧ v.getLsbD 2 = true)
      ∨ ∃ ts, s.turns = .reset :: ts)
    ∧ (s.werr = false → t.werr = true → s.phase = .busy ∧ ∃ address size v ts,
      s.turns = .host (.write address size v) :: ts ∧ target s.cfg address size ≠ none
      ∧ address ≠ 0x00000004#32 ∧ address ≠ 0x00000008#32)

/-- R28: DONE is set only by a completion step, and cleared only by a command start, a host write of STATUS with bit 1
set, or reset. -/
def Obligations.DoneFollowsCompletions : Prop :=
  ∀ s t : State, step s = .next t →
    (s.done = false → t.done = true →
      s.phase = .busy ∧ t.phase = .idle ∧ (s.turns = [] ∨ ∃ ts, s.turns = .engine :: ts))
    ∧ (s.done = true → t.done = false →
      (∃ v ts, s.turns = .host (.write 0x0000000C#32 .b32 v) :: ts ∧ s.phase = .idle ∧ t.phase = .busy)
      ∨ (∃ v ts, s.turns = .host (.write 0x00000008#32 .b32 v) :: ts ∧ v.getLsbD 1 = true)
      ∨ ∃ ts, s.turns = .reset :: ts)

/-- A running command completes once the listed turns are used up (R236; the list of turns is the model's, log 4). -/
def Obligations.BusyEndsWhenTurnsRunOut : Prop :=
  ∀ s : State, s.cfg.wf = true → s.phase = .busy → s.turns = [] →
    ∃ t, step s = .next t ∧ t.phase = .idle ∧ t.done = true

/-- A configuration that breaks a constraint of R7 is refused (00_scope.md R7, U6): no step of it has a meaning. (That
`step` is what refuses is the model's, log 7.) -/
def Obligations.IllegalConfigurationIsRefused : Prop :=
  ∀ s : State,
    ¬((1 ≤ s.cfg.nCbuf ∧ s.cfg.nCbuf ≤ 2 ^ 24) ∧ (1 ≤ s.cfg.nMbuf ∧ s.cfg.nMbuf ≤ 2 ^ 24)
      ∧ (2 ≤ s.cfg.nBbuf ∧ s.cfg.nBbuf ≤ 2 ^ 24)
      ∧ (max s.cfg.nBbuf (s.cfg.nCbuf / 8) ≤ s.cfg.nTbuf ∧ s.cfg.nTbuf ≤ 2 ^ 24)) →
    step s = .refused .illegalConfiguration

/-- Every step keeps the invariant: canonical memory inside the implemented buffers, DONE and BUSY never together, ERR
0 while BUSY, reserved fields 0, OUT_LEN and DISCARDED following PAYLOAD_BITS, the result registers within bounds. -/
def Obligations.StepKeepsInvariant : Prop :=
  ∀ s t : State, s.Inv → step s = .next t → t.Inv

/-- The reset state of a part of any sizes meets the invariant. (The sizes of `State.reset` are the model's, log 1.) -/
def Obligations.ResetMeetsInvariant : Prop :=
  State.reset.Inv ∧ ∀ c : Config, (State.resetOf c).Inv
end

