-- ==== Sys2Proof/Laws/State.lean ====
section
/-! SUPPORT. What each update of the state does to each field: one lemma per field per update. -/

namespace Sys2Proof.Laws

open Sys2Proof.Machine

/-! ### storeBytes -/

@[simp] theorem storeBytes_cfg (s : State) (a : Nat) (bs : List Byte) : (s.storeBytes a bs).cfg = s.cfg := rfl
@[simp] theorem storeBytes_phase (s : State) (a : Nat) (bs : List Byte) : (s.storeBytes a bs).phase = s.phase := rfl
@[simp] theorem storeBytes_pending (s : State) (a : Nat) (bs : List Byte) : (s.storeBytes a bs).pending = s.pending := rfl
@[simp] theorem storeBytes_ie (s : State) (a : Nat) (bs : List Byte) : (s.storeBytes a bs).ie = s.ie := rfl
@[simp] theorem storeBytes_done (s : State) (a : Nat) (bs : List Byte) : (s.storeBytes a bs).done = s.done := rfl
@[simp] theorem storeBytes_werr (s : State) (a : Nat) (bs : List Byte) : (s.storeBytes a bs).werr = s.werr := rfl
@[simp] theorem storeBytes_err (s : State) (a : Nat) (bs : List Byte) : (s.storeBytes a bs).err = s.err := rfl
@[simp] theorem storeBytes_msgLen (s : State) (a : Nat) (bs : List Byte) : (s.storeBytes a bs).msgLen = s.msgLen := rfl
@[simp] theorem storeBytes_imgDim (s : State) (a : Nat) (bs : List Byte) : (s.storeBytes a bs).imgDim = s.imgDim := rfl
@[simp] theorem storeBytes_audNsamp (s : State) (a : Nat) (bs : List Byte) : (s.storeBytes a bs).audNsamp = s.audNsamp := rfl
@[simp] theorem storeBytes_audFmt (s : State) (a : Nat) (bs : List Byte) : (s.storeBytes a bs).audFmt = s.audFmt := rfl
@[simp] theorem storeBytes_audRate (s : State) (a : Nat) (bs : List Byte) : (s.storeBytes a bs).audRate = s.audRate := rfl
@[simp] theorem storeBytes_bitLen (s : State) (a : Nat) (bs : List Byte) : (s.storeBytes a bs).bitLen = s.bitLen := rfl
@[simp] theorem storeBytes_reqBits (s : State) (a : Nat) (bs : List Byte) : (s.storeBytes a bs).reqBits = s.reqBits := rfl
@[simp] theorem storeBytes_availBits (s : State) (a : Nat) (bs : List Byte) : (s.storeBytes a bs).availBits = s.availBits := rfl
@[simp] theorem storeBytes_outLen (s : State) (a : Nat) (bs : List Byte) : (s.storeBytes a bs).outLen = s.outLen := rfl
@[simp] theorem storeBytes_decInfo (s : State) (a : Nat) (bs : List Byte) : (s.storeBytes a bs).decInfo = s.decInfo := rfl
@[simp] theorem storeBytes_payloadBits (s : State) (a : Nat) (bs : List Byte) : (s.storeBytes a bs).payloadBits = s.payloadBits := rfl
@[simp] theorem storeBytes_outAudFmt (s : State) (a : Nat) (bs : List Byte) : (s.storeBytes a bs).outAudFmt = s.outAudFmt := rfl
@[simp] theorem storeBytes_outAudRate (s : State) (a : Nat) (bs : List Byte) : (s.storeBytes a bs).outAudRate = s.outAudRate := rfl
@[simp] theorem storeBytes_outAudNsamp (s : State) (a : Nat) (bs : List Byte) : (s.storeBytes a bs).outAudNsamp = s.outAudNsamp := rfl
@[simp] theorem storeBytes_errInfo (s : State) (a : Nat) (bs : List Byte) : (s.storeBytes a bs).errInfo = s.errInfo := rfl
@[simp] theorem storeBytes_mem (s : State) (a : Nat) (bs : List Byte) : (s.storeBytes a bs).mem = s.mem.storeBytes a bs := rfl
@[simp] theorem storeBytes_epoch (s : State) (a : Nat) (bs : List Byte) : (s.storeBytes a bs).epoch = s.epoch := rfl
@[simp] theorem storeBytes_draws (s : State) (a : Nat) (bs : List Byte) : (s.storeBytes a bs).draws = s.draws := rfl
@[simp] theorem storeBytes_turns (s : State) (a : Nat) (bs : List Byte) : (s.storeBytes a bs).turns = s.turns := rfl
@[simp] theorem storeBytes_lastRead (s : State) (a : Nat) (bs : List Byte) : (s.storeBytes a bs).lastRead = s.lastRead := rfl

/-! ### finish -/

@[simp] theorem finish_cfg (c : OutcomeCode) (w : Word) (s : State) : (finish c w s).cfg = s.cfg := rfl
@[simp] theorem finish_phase (c : OutcomeCode) (w : Word) (s : State) : (finish c w s).phase = .idle := rfl
@[simp] theorem finish_pending (c : OutcomeCode) (w : Word) (s : State) : (finish c w s).pending = s.pending := rfl
@[simp] theorem finish_ie (c : OutcomeCode) (w : Word) (s : State) : (finish c w s).ie = s.ie := rfl
@[simp] theorem finish_done (c : OutcomeCode) (w : Word) (s : State) : (finish c w s).done = true := rfl
@[simp] theorem finish_werr (c : OutcomeCode) (w : Word) (s : State) : (finish c w s).werr = s.werr := rfl
@[simp] theorem finish_err (c : OutcomeCode) (w : Word) (s : State) : (finish c w s).err = c := rfl
@[simp] theorem finish_msgLen (c : OutcomeCode) (w : Word) (s : State) : (finish c w s).msgLen = s.msgLen := rfl
@[simp] theorem finish_imgDim (c : OutcomeCode) (w : Word) (s : State) : (finish c w s).imgDim = s.imgDim := rfl
@[simp] theorem finish_audNsamp (c : OutcomeCode) (w : Word) (s : State) : (finish c w s).audNsamp = s.audNsamp := rfl
@[simp] theorem finish_audFmt (c : OutcomeCode) (w : Word) (s : State) : (finish c w s).audFmt = s.audFmt := rfl
@[simp] theorem finish_audRate (c : OutcomeCode) (w : Word) (s : State) : (finish c w s).audRate = s.audRate := rfl
@[simp] theorem finish_bitLen (c : OutcomeCode) (w : Word) (s : State) : (finish c w s).bitLen = s.bitLen := rfl
@[simp] theorem finish_reqBits (c : OutcomeCode) (w : Word) (s : State) : (finish c w s).reqBits = s.reqBits := rfl
@[simp] theorem finish_availBits (c : OutcomeCode) (w : Word) (s : State) : (finish c w s).availBits = s.availBits := rfl
@[simp] theorem finish_outLen (c : OutcomeCode) (w : Word) (s : State) : (finish c w s).outLen = s.outLen := rfl
@[simp] theorem finish_decInfo (c : OutcomeCode) (w : Word) (s : State) : (finish c w s).decInfo = s.decInfo := rfl
@[simp] theorem finish_payloadBits (c : OutcomeCode) (w : Word) (s : State) : (finish c w s).payloadBits = s.payloadBits := rfl
@[simp] theorem finish_outAudFmt (c : OutcomeCode) (w : Word) (s : State) : (finish c w s).outAudFmt = s.outAudFmt := rfl
@[simp] theorem finish_outAudRate (c : OutcomeCode) (w : Word) (s : State) : (finish c w s).outAudRate = s.outAudRate := rfl
@[simp] theorem finish_outAudNsamp (c : OutcomeCode) (w : Word) (s : State) : (finish c w s).outAudNsamp = s.outAudNsamp := rfl
@[simp] theorem finish_errInfo (c : OutcomeCode) (w : Word) (s : State) : (finish c w s).errInfo = w := rfl
@[simp] theorem finish_mem (c : OutcomeCode) (w : Word) (s : State) : (finish c w s).mem = s.mem := rfl
@[simp] theorem finish_epoch (c : OutcomeCode) (w : Word) (s : State) : (finish c w s).epoch = s.epoch := rfl
@[simp] theorem finish_draws (c : OutcomeCode) (w : Word) (s : State) : (finish c w s).draws = s.draws := rfl
@[simp] theorem finish_turns (c : OutcomeCode) (w : Word) (s : State) : (finish c w s).turns = s.turns := rfl
@[simp] theorem finish_lastRead (c : OutcomeCode) (w : Word) (s : State) : (finish c w s).lastRead = s.lastRead := rfl

/-! ### completeOk -/

@[simp] theorem completeOk_cfg (s : State) : (completeOk s).cfg = s.cfg := rfl
@[simp] theorem completeOk_phase (s : State) : (completeOk s).phase = .idle := rfl
@[simp] theorem completeOk_pending (s : State) : (completeOk s).pending = s.pending := rfl
@[simp] theorem completeOk_ie (s : State) : (completeOk s).ie = s.ie := rfl
@[simp] theorem completeOk_done (s : State) : (completeOk s).done = true := rfl
@[simp] theorem completeOk_werr (s : State) : (completeOk s).werr = s.werr := rfl
@[simp] theorem completeOk_err (s : State) : (completeOk s).err = .ok := rfl
@[simp] theorem completeOk_msgLen (s : State) : (completeOk s).msgLen = s.msgLen := rfl
@[simp] theorem completeOk_imgDim (s : State) : (completeOk s).imgDim = s.imgDim := rfl
@[simp] theorem completeOk_audNsamp (s : State) : (completeOk s).audNsamp = s.audNsamp := rfl
@[simp] theorem completeOk_audFmt (s : State) : (completeOk s).audFmt = s.audFmt := rfl
@[simp] theorem completeOk_audRate (s : State) : (completeOk s).audRate = s.audRate := rfl
@[simp] theorem completeOk_bitLen (s : State) : (completeOk s).bitLen = s.bitLen := rfl
@[simp] theorem completeOk_reqBits (s : State) : (completeOk s).reqBits = s.reqBits := rfl
@[simp] theorem completeOk_availBits (s : State) : (completeOk s).availBits = s.availBits := rfl
@[simp] theorem completeOk_outLen (s : State) : (completeOk s).outLen = s.outLen := rfl
@[simp] theorem completeOk_decInfo (s : State) : (completeOk s).decInfo = s.decInfo := rfl
@[simp] theorem completeOk_payloadBits (s : State) : (completeOk s).payloadBits = s.payloadBits := rfl
@[simp] theorem completeOk_outAudFmt (s : State) : (completeOk s).outAudFmt = s.outAudFmt := rfl
@[simp] theorem completeOk_outAudRate (s : State) : (completeOk s).outAudRate = s.outAudRate := rfl
@[simp] theorem completeOk_outAudNsamp (s : State) : (completeOk s).outAudNsamp = s.outAudNsamp := rfl
@[simp] theorem completeOk_errInfo (s : State) : (completeOk s).errInfo = 0 := rfl
@[simp] theorem completeOk_mem (s : State) : (completeOk s).mem = s.mem := rfl
@[simp] theorem completeOk_epoch (s : State) : (completeOk s).epoch = s.epoch := rfl
@[simp] theorem completeOk_draws (s : State) : (completeOk s).draws = s.draws := rfl
@[simp] theorem completeOk_turns (s : State) : (completeOk s).turns = s.turns := rfl
@[simp] theorem completeOk_lastRead (s : State) : (completeOk s).lastRead = s.lastRead := rfl

/-! ### raiseError -/

@[simp] theorem raiseError_cfg (e : CmdError) (s : State) : (raiseError e s).cfg = s.cfg := by cases e <;> rfl
@[simp] theorem raiseError_phase (e : CmdError) (s : State) : (raiseError e s).phase = .idle := by cases e <;> rfl
@[simp] theorem raiseError_pending (e : CmdError) (s : State) : (raiseError e s).pending = s.pending := by cases e <;> rfl
@[simp] theorem raiseError_ie (e : CmdError) (s : State) : (raiseError e s).ie = s.ie := by cases e <;> rfl
@[simp] theorem raiseError_done (e : CmdError) (s : State) : (raiseError e s).done = true := by cases e <;> rfl
@[simp] theorem raiseError_werr (e : CmdError) (s : State) : (raiseError e s).werr = s.werr := by cases e <;> rfl
@[simp] theorem raiseError_err (e : CmdError) (s : State) : (raiseError e s).err = errorCode e := by cases e <;> rfl
@[simp] theorem raiseError_msgLen (e : CmdError) (s : State) : (raiseError e s).msgLen = s.msgLen := by cases e <;> rfl
@[simp] theorem raiseError_imgDim (e : CmdError) (s : State) : (raiseError e s).imgDim = s.imgDim := by cases e <;> rfl
@[simp] theorem raiseError_audNsamp (e : CmdError) (s : State) : (raiseError e s).audNsamp = s.audNsamp := by cases e <;> rfl
@[simp] theorem raiseError_audFmt (e : CmdError) (s : State) : (raiseError e s).audFmt = s.audFmt := by cases e <;> rfl
@[simp] theorem raiseError_audRate (e : CmdError) (s : State) : (raiseError e s).audRate = s.audRate := by cases e <;> rfl
@[simp] theorem raiseError_bitLen (e : CmdError) (s : State) : (raiseError e s).bitLen = s.bitLen := by cases e <;> rfl
@[simp] theorem raiseError_outLen (e : CmdError) (s : State) : (raiseError e s).outLen = s.outLen := by cases e <;> rfl
@[simp] theorem raiseError_decInfo (e : CmdError) (s : State) : (raiseError e s).decInfo = s.decInfo := by cases e <;> rfl
@[simp] theorem raiseError_payloadBits (e : CmdError) (s : State) : (raiseError e s).payloadBits = s.payloadBits := by cases e <;> rfl
@[simp] theorem raiseError_outAudFmt (e : CmdError) (s : State) : (raiseError e s).outAudFmt = s.outAudFmt := by cases e <;> rfl
@[simp] theorem raiseError_outAudRate (e : CmdError) (s : State) : (raiseError e s).outAudRate = s.outAudRate := by cases e <;> rfl
@[simp] theorem raiseError_outAudNsamp (e : CmdError) (s : State) : (raiseError e s).outAudNsamp = s.outAudNsamp := by cases e <;> rfl
@[simp] theorem raiseError_errInfo (e : CmdError) (s : State) : (raiseError e s).errInfo = errorInfo e := by cases e <;> rfl
@[simp] theorem raiseError_mem (e : CmdError) (s : State) : (raiseError e s).mem = s.mem := by cases e <;> rfl
@[simp] theorem raiseError_epoch (e : CmdError) (s : State) : (raiseError e s).epoch = s.epoch := by cases e <;> rfl
@[simp] theorem raiseError_draws (e : CmdError) (s : State) : (raiseError e s).draws = s.draws := by cases e <;> rfl
@[simp] theorem raiseError_turns (e : CmdError) (s : State) : (raiseError e s).turns = s.turns := by cases e <;> rfl
@[simp] theorem raiseError_lastRead (e : CmdError) (s : State) : (raiseError e s).lastRead = s.lastRead := by cases e <;> rfl

/-! ### commandStart -/

@[simp] theorem commandStart_cfg (v : Word) (s : State) : (commandStart v s).cfg = s.cfg := rfl
@[simp] theorem commandStart_phase (v : Word) (s : State) : (commandStart v s).phase = .busy := rfl
@[simp] theorem commandStart_pending (v : Word) (s : State) : (commandStart v s).pending = v := rfl
@[simp] theorem commandStart_ie (v : Word) (s : State) : (commandStart v s).ie = s.ie := rfl
@[simp] theorem commandStart_done (v : Word) (s : State) : (commandStart v s).done = false := rfl
@[simp] theorem commandStart_werr (v : Word) (s : State) : (commandStart v s).werr = s.werr := rfl
@[simp] theorem commandStart_err (v : Word) (s : State) : (commandStart v s).err = .ok := rfl
@[simp] theorem commandStart_msgLen (v : Word) (s : State) : (commandStart v s).msgLen = s.msgLen := rfl
@[simp] theorem commandStart_imgDim (v : Word) (s : State) : (commandStart v s).imgDim = s.imgDim := rfl
@[simp] theorem commandStart_audNsamp (v : Word) (s : State) : (commandStart v s).audNsamp = s.audNsamp := rfl
@[simp] theorem commandStart_audFmt (v : Word) (s : State) : (commandStart v s).audFmt = s.audFmt := rfl
@[simp] theorem commandStart_audRate (v : Word) (s : State) : (commandStart v s).audRate = s.audRate := rfl
@[simp] theorem commandStart_bitLen (v : Word) (s : State) : (commandStart v s).bitLen = s.bitLen := rfl
@[simp] theorem commandStart_reqBits (v : Word) (s : State) : (commandStart v s).reqBits = s.reqBits := rfl
@[simp] theorem commandStart_availBits (v : Word) (s : State) : (commandStart v s).availBits = s.availBits := rfl
@[simp] theorem commandStart_outLen (v : Word) (s : State) : (commandStart v s).outLen = s.outLen := rfl
@[simp] theorem commandStart_decInfo (v : Word) (s : State) : (commandStart v s).decInfo = s.decInfo := rfl
@[simp] theorem commandStart_payloadBits (v : Word) (s : State) : (commandStart v s).payloadBits = s.payloadBits := rfl
@[simp] theorem commandStart_outAudFmt (v : Word) (s : State) : (commandStart v s).outAudFmt = s.outAudFmt := rfl
@[simp] theorem commandStart_outAudRate (v : Word) (s : State) : (commandStart v s).outAudRate = s.outAudRate := rfl
@[simp] theorem commandStart_outAudNsamp (v : Word) (s : State) : (commandStart v s).outAudNsamp = s.outAudNsamp := rfl
@[simp] theorem commandStart_errInfo (v : Word) (s : State) : (commandStart v s).errInfo = s.errInfo := rfl
@[simp] theorem commandStart_mem (v : Word) (s : State) : (commandStart v s).mem = s.mem := rfl
@[simp] theorem commandStart_epoch (v : Word) (s : State) : (commandStart v s).epoch = s.epoch := rfl
@[simp] theorem commandStart_draws (v : Word) (s : State) : (commandStart v s).draws = s.draws := rfl
@[simp] theorem commandStart_turns (v : Word) (s : State) : (commandStart v s).turns = s.turns := rfl
@[simp] theorem commandStart_lastRead (v : Word) (s : State) : (commandStart v s).lastRead = s.lastRead := rfl

/-! ### setAvail -/

@[simp] theorem setAvail_cfg (n : Nat) (s : State) : (setAvail n s).cfg = s.cfg := rfl
@[simp] theorem setAvail_phase (n : Nat) (s : State) : (setAvail n s).phase = s.phase := rfl
@[simp] theorem setAvail_pending (n : Nat) (s : State) : (setAvail n s).pending = s.pending := rfl
@[simp] theorem setAvail_ie (n : Nat) (s : State) : (setAvail n s).ie = s.ie := rfl
@[simp] theorem setAvail_done (n : Nat) (s : State) : (setAvail n s).done = s.done := rfl
@[simp] theorem setAvail_werr (n : Nat) (s : State) : (setAvail n s).werr = s.werr := rfl
@[simp] theorem setAvail_err (n : Nat) (s : State) : (setAvail n s).err = s.err := rfl
@[simp] theorem setAvail_msgLen (n : Nat) (s : State) : (setAvail n s).msgLen = s.msgLen := rfl
@[simp] theorem setAvail_imgDim (n : Nat) (s : State) : (setAvail n s).imgDim = s.imgDim := rfl
@[simp] theorem setAvail_audNsamp (n : Nat) (s : State) : (setAvail n s).audNsamp = s.audNsamp := rfl
@[simp] theorem setAvail_audFmt (n : Nat) (s : State) : (setAvail n s).audFmt = s.audFmt := rfl
@[simp] theorem setAvail_audRate (n : Nat) (s : State) : (setAvail n s).audRate = s.audRate := rfl
@[simp] theorem setAvail_bitLen (n : Nat) (s : State) : (setAvail n s).bitLen = s.bitLen := rfl
@[simp] theorem setAvail_reqBits (n : Nat) (s : State) : (setAvail n s).reqBits = s.reqBits := rfl
@[simp] theorem setAvail_availBits (n : Nat) (s : State) : (setAvail n s).availBits = BitVec.ofNat 64 n := rfl
@[simp] theorem setAvail_outLen (n : Nat) (s : State) : (setAvail n s).outLen = s.outLen := rfl
@[simp] theorem setAvail_decInfo (n : Nat) (s : State) : (setAvail n s).decInfo = s.decInfo := rfl
@[simp] theorem setAvail_payloadBits (n : Nat) (s : State) : (setAvail n s).payloadBits = s.payloadBits := rfl
@[simp] theorem setAvail_outAudFmt (n : Nat) (s : State) : (setAvail n s).outAudFmt = s.outAudFmt := rfl
@[simp] theorem setAvail_outAudRate (n : Nat) (s : State) : (setAvail n s).outAudRate = s.outAudRate := rfl
@[simp] theorem setAvail_outAudNsamp (n : Nat) (s : State) : (setAvail n s).outAudNsamp = s.outAudNsamp := rfl
@[simp] theorem setAvail_errInfo (n : Nat) (s : State) : (setAvail n s).errInfo = s.errInfo := rfl
@[simp] theorem setAvail_mem (n : Nat) (s : State) : (setAvail n s).mem = s.mem := rfl
@[simp] theorem setAvail_epoch (n : Nat) (s : State) : (setAvail n s).epoch = s.epoch := rfl
@[simp] theorem setAvail_draws (n : Nat) (s : State) : (setAvail n s).draws = s.draws := rfl
@[simp] theorem setAvail_turns (n : Nat) (s : State) : (setAvail n s).turns = s.turns := rfl
@[simp] theorem setAvail_lastRead (n : Nat) (s : State) : (setAvail n s).lastRead = s.lastRead := rfl

/-! ### setReqAvail -/

@[simp] theorem setReqAvail_cfg (r n : Nat) (s : State) : (setReqAvail r n s).cfg = s.cfg := rfl
@[simp] theorem setReqAvail_phase (r n : Nat) (s : State) : (setReqAvail r n s).phase = s.phase := rfl
@[simp] theorem setReqAvail_pending (r n : Nat) (s : State) : (setReqAvail r n s).pending = s.pending := rfl
@[simp] theorem setReqAvail_ie (r n : Nat) (s : State) : (setReqAvail r n s).ie = s.ie := rfl
@[simp] theorem setReqAvail_done (r n : Nat) (s : State) : (setReqAvail r n s).done = s.done := rfl
@[simp] theorem setReqAvail_werr (r n : Nat) (s : State) : (setReqAvail r n s).werr = s.werr := rfl
@[simp] theorem setReqAvail_err (r n : Nat) (s : State) : (setReqAvail r n s).err = s.err := rfl
@[simp] theorem setReqAvail_msgLen (r n : Nat) (s : State) : (setReqAvail r n s).msgLen = s.msgLen := rfl
@[simp] theorem setReqAvail_imgDim (r n : Nat) (s : State) : (setReqAvail r n s).imgDim = s.imgDim := rfl
@[simp] theorem setReqAvail_audNsamp (r n : Nat) (s : State) : (setReqAvail r n s).audNsamp = s.audNsamp := rfl
@[simp] theorem setReqAvail_audFmt (r n : Nat) (s : State) : (setReqAvail r n s).audFmt = s.audFmt := rfl
@[simp] theorem setReqAvail_audRate (r n : Nat) (s : State) : (setReqAvail r n s).audRate = s.audRate := rfl
@[simp] theorem setReqAvail_bitLen (r n : Nat) (s : State) : (setReqAvail r n s).bitLen = s.bitLen := rfl
@[simp] theorem setReqAvail_reqBits (r n : Nat) (s : State) : (setReqAvail r n s).reqBits = BitVec.ofNat 64 r := rfl
@[simp] theorem setReqAvail_availBits (r n : Nat) (s : State) : (setReqAvail r n s).availBits = BitVec.ofNat 64 n := rfl
@[simp] theorem setReqAvail_outLen (r n : Nat) (s : State) : (setReqAvail r n s).outLen = s.outLen := rfl
@[simp] theorem setReqAvail_decInfo (r n : Nat) (s : State) : (setReqAvail r n s).decInfo = s.decInfo := rfl
@[simp] theorem setReqAvail_payloadBits (r n : Nat) (s : State) : (setReqAvail r n s).payloadBits = s.payloadBits := rfl
@[simp] theorem setReqAvail_outAudFmt (r n : Nat) (s : State) : (setReqAvail r n s).outAudFmt = s.outAudFmt := rfl
@[simp] theorem setReqAvail_outAudRate (r n : Nat) (s : State) : (setReqAvail r n s).outAudRate = s.outAudRate := rfl
@[simp] theorem setReqAvail_outAudNsamp (r n : Nat) (s : State) : (setReqAvail r n s).outAudNsamp = s.outAudNsamp := rfl
@[simp] theorem setReqAvail_errInfo (r n : Nat) (s : State) : (setReqAvail r n s).errInfo = s.errInfo := rfl
@[simp] theorem setReqAvail_mem (r n : Nat) (s : State) : (setReqAvail r n s).mem = s.mem := rfl
@[simp] theorem setReqAvail_epoch (r n : Nat) (s : State) : (setReqAvail r n s).epoch = s.epoch := rfl
@[simp] theorem setReqAvail_draws (r n : Nat) (s : State) : (setReqAvail r n s).draws = s.draws := rfl
@[simp] theorem setReqAvail_turns (r n : Nat) (s : State) : (setReqAvail r n s).turns = s.turns := rfl
@[simp] theorem setReqAvail_lastRead (r n : Nat) (s : State) : (setReqAvail r n s).lastRead = s.lastRead := rfl

/-! ### emitDecoded -/

@[simp] theorem emitDecoded_cfg (d : Deframed) (s : State) : (emitDecoded d s).cfg = s.cfg := rfl
@[simp] theorem emitDecoded_phase (d : Deframed) (s : State) : (emitDecoded d s).phase = s.phase := rfl
@[simp] theorem emitDecoded_pending (d : Deframed) (s : State) : (emitDecoded d s).pending = s.pending := rfl
@[simp] theorem emitDecoded_ie (d : Deframed) (s : State) : (emitDecoded d s).ie = s.ie := rfl
@[simp] theorem emitDecoded_done (d : Deframed) (s : State) : (emitDecoded d s).done = s.done := rfl
@[simp] theorem emitDecoded_werr (d : Deframed) (s : State) : (emitDecoded d s).werr = s.werr := rfl
@[simp] theorem emitDecoded_err (d : Deframed) (s : State) : (emitDecoded d s).err = s.err := rfl
@[simp] theorem emitDecoded_msgLen (d : Deframed) (s : State) : (emitDecoded d s).msgLen = s.msgLen := rfl
@[simp] theorem emitDecoded_imgDim (d : Deframed) (s : State) : (emitDecoded d s).imgDim = s.imgDim := rfl
@[simp] theorem emitDecoded_audNsamp (d : Deframed) (s : State) : (emitDecoded d s).audNsamp = s.audNsamp := rfl
@[simp] theorem emitDecoded_audFmt (d : Deframed) (s : State) : (emitDecoded d s).audFmt = s.audFmt := rfl
@[simp] theorem emitDecoded_audRate (d : Deframed) (s : State) : (emitDecoded d s).audRate = s.audRate := rfl
@[simp] theorem emitDecoded_bitLen (d : Deframed) (s : State) : (emitDecoded d s).bitLen = s.bitLen := rfl
@[simp] theorem emitDecoded_reqBits (d : Deframed) (s : State) : (emitDecoded d s).reqBits = s.reqBits := rfl
@[simp] theorem emitDecoded_availBits (d : Deframed) (s : State) : (emitDecoded d s).availBits = s.availBits := rfl
@[simp] theorem emitDecoded_outLen (d : Deframed) (s : State) : (emitDecoded d s).outLen = BitVec.ofNat 32 d.out.length := rfl
@[simp] theorem emitDecoded_decInfo (d : Deframed) (s : State) : (emitDecoded d s).decInfo = decInfoWord d.found d.payload := rfl
@[simp] theorem emitDecoded_payloadBits (d : Deframed) (s : State) : (emitDecoded d s).payloadBits = BitVec.ofNat 32 d.payload := rfl
@[simp] theorem emitDecoded_outAudFmt (d : Deframed) (s : State) : (emitDecoded d s).outAudFmt = s.outAudFmt := rfl
@[simp] theorem emitDecoded_outAudRate (d : Deframed) (s : State) : (emitDecoded d s).outAudRate = s.outAudRate := rfl
@[simp] theorem emitDecoded_outAudNsamp (d : Deframed) (s : State) : (emitDecoded d s).outAudNsamp = s.outAudNsamp := rfl
@[simp] theorem emitDecoded_errInfo (d : Deframed) (s : State) : (emitDecoded d s).errInfo = s.errInfo := rfl
@[simp] theorem emitDecoded_mem (d : Deframed) (s : State) : (emitDecoded d s).mem = s.mem.storeBytes (bufBase .tbuf) d.out := rfl
@[simp] theorem emitDecoded_epoch (d : Deframed) (s : State) : (emitDecoded d s).epoch = s.epoch := rfl
@[simp] theorem emitDecoded_draws (d : Deframed) (s : State) : (emitDecoded d s).draws = s.draws := rfl
@[simp] theorem emitDecoded_turns (d : Deframed) (s : State) : (emitDecoded d s).turns = s.turns := rfl
@[simp] theorem emitDecoded_lastRead (d : Deframed) (s : State) : (emitDecoded d s).lastRead = s.lastRead := rfl

/-! ### echoStream -/

@[simp] theorem echoStream_cfg (s : State) : (echoStream s).cfg = s.cfg := rfl
@[simp] theorem echoStream_phase (s : State) : (echoStream s).phase = s.phase := rfl
@[simp] theorem echoStream_pending (s : State) : (echoStream s).pending = s.pending := rfl
@[simp] theorem echoStream_ie (s : State) : (echoStream s).ie = s.ie := rfl
@[simp] theorem echoStream_done (s : State) : (echoStream s).done = s.done := rfl
@[simp] theorem echoStream_werr (s : State) : (echoStream s).werr = s.werr := rfl
@[simp] theorem echoStream_err (s : State) : (echoStream s).err = s.err := rfl
@[simp] theorem echoStream_msgLen (s : State) : (echoStream s).msgLen = s.msgLen := rfl
@[simp] theorem echoStream_imgDim (s : State) : (echoStream s).imgDim = s.imgDim := rfl
@[simp] theorem echoStream_audNsamp (s : State) : (echoStream s).audNsamp = s.audNsamp := rfl
@[simp] theorem echoStream_audFmt (s : State) : (echoStream s).audFmt = s.audFmt := rfl
@[simp] theorem echoStream_audRate (s : State) : (echoStream s).audRate = s.audRate := rfl
@[simp] theorem echoStream_bitLen (s : State) : (echoStream s).bitLen = s.bitLen := rfl
@[simp] theorem echoStream_reqBits (s : State) : (echoStream s).reqBits = s.reqBits := rfl
@[simp] theorem echoStream_availBits (s : State) : (echoStream s).availBits = s.availBits := rfl
@[simp] theorem echoStream_outLen (s : State) : (echoStream s).outLen = s.outLen := rfl
@[simp] theorem echoStream_decInfo (s : State) : (echoStream s).decInfo = s.decInfo := rfl
@[simp] theorem echoStream_payloadBits (s : State) : (echoStream s).payloadBits = s.payloadBits := rfl
@[simp] theorem echoStream_outAudFmt (s : State) : (echoStream s).outAudFmt = s.audFmt := rfl
@[simp] theorem echoStream_outAudRate (s : State) : (echoStream s).outAudRate = s.audRate := rfl
@[simp] theorem echoStream_outAudNsamp (s : State) : (echoStream s).outAudNsamp = s.audNsamp := rfl
@[simp] theorem echoStream_errInfo (s : State) : (echoStream s).errInfo = s.errInfo := rfl
@[simp] theorem echoStream_mem (s : State) : (echoStream s).mem = s.mem := rfl
@[simp] theorem echoStream_epoch (s : State) : (echoStream s).epoch = s.epoch := rfl
@[simp] theorem echoStream_draws (s : State) : (echoStream s).draws = s.draws := rfl
@[simp] theorem echoStream_turns (s : State) : (echoStream s).turns = s.turns := rfl
@[simp] theorem echoStream_lastRead (s : State) : (echoStream s).lastRead = s.lastRead := rfl

/-! ### writeStatus -/

@[simp] theorem writeStatus_cfg (v : Word) (s : State) : (writeStatus v s).cfg = s.cfg := rfl
@[simp] theorem writeStatus_phase (v : Word) (s : State) : (writeStatus v s).phase = s.phase := rfl
@[simp] theorem writeStatus_pending (v : Word) (s : State) : (writeStatus v s).pending = s.pending := rfl
@[simp] theorem writeStatus_ie (v : Word) (s : State) : (writeStatus v s).ie = s.ie := rfl
@[simp] theorem writeStatus_done (v : Word) (s : State) : (writeStatus v s).done = (s.done && !v.getLsbD 1) := rfl
@[simp] theorem writeStatus_werr (v : Word) (s : State) : (writeStatus v s).werr = (s.werr && !v.getLsbD 2) := rfl
@[simp] theorem writeStatus_err (v : Word) (s : State) : (writeStatus v s).err = s.err := rfl
@[simp] theorem writeStatus_msgLen (v : Word) (s : State) : (writeStatus v s).msgLen = s.msgLen := rfl
@[simp] theorem writeStatus_imgDim (v : Word) (s : State) : (writeStatus v s).imgDim = s.imgDim := rfl
@[simp] theorem writeStatus_audNsamp (v : Word) (s : State) : (writeStatus v s).audNsamp = s.audNsamp := rfl
@[simp] theorem writeStatus_audFmt (v : Word) (s : State) : (writeStatus v s).audFmt = s.audFmt := rfl
@[simp] theorem writeStatus_audRate (v : Word) (s : State) : (writeStatus v s).audRate = s.audRate := rfl
@[simp] theorem writeStatus_bitLen (v : Word) (s : State) : (writeStatus v s).bitLen = s.bitLen := rfl
@[simp] theorem writeStatus_reqBits (v : Word) (s : State) : (writeStatus v s).reqBits = s.reqBits := rfl
@[simp] theorem writeStatus_availBits (v : Word) (s : State) : (writeStatus v s).availBits = s.availBits := rfl
@[simp] theorem writeStatus_outLen (v : Word) (s : State) : (writeStatus v s).outLen = s.outLen := rfl
@[simp] theorem writeStatus_decInfo (v : Word) (s : State) : (writeStatus v s).decInfo = s.decInfo := rfl
@[simp] theorem writeStatus_payloadBits (v : Word) (s : State) : (writeStatus v s).payloadBits = s.payloadBits := rfl
@[simp] theorem writeStatus_outAudFmt (v : Word) (s : State) : (writeStatus v s).outAudFmt = s.outAudFmt := rfl
@[simp] theorem writeStatus_outAudRate (v : Word) (s : State) : (writeStatus v s).outAudRate = s.outAudRate := rfl
@[simp] theorem writeStatus_outAudNsamp (v : Word) (s : State) : (writeStatus v s).outAudNsamp = s.outAudNsamp := rfl
@[simp] theorem writeStatus_errInfo (v : Word) (s : State) : (writeStatus v s).errInfo = s.errInfo := rfl
@[simp] theorem writeStatus_mem (v : Word) (s : State) : (writeStatus v s).mem = s.mem := rfl
@[simp] theorem writeStatus_epoch (v : Word) (s : State) : (writeStatus v s).epoch = s.epoch := rfl
@[simp] theorem writeStatus_draws (v : Word) (s : State) : (writeStatus v s).draws = s.draws := rfl
@[simp] theorem writeStatus_turns (v : Word) (s : State) : (writeStatus v s).turns = s.turns := rfl
@[simp] theorem writeStatus_lastRead (v : Word) (s : State) : (writeStatus v s).lastRead = s.lastRead := rfl

/-! ### writeCtrl -/

@[simp] theorem writeCtrl_cfg (v : Word) (s : State) : (writeCtrl v s).cfg = s.cfg := rfl
@[simp] theorem writeCtrl_phase (v : Word) (s : State) : (writeCtrl v s).phase = s.phase := rfl
@[simp] theorem writeCtrl_pending (v : Word) (s : State) : (writeCtrl v s).pending = s.pending := rfl
@[simp] theorem writeCtrl_ie (v : Word) (s : State) : (writeCtrl v s).ie = v.getLsbD 0 := rfl
@[simp] theorem writeCtrl_done (v : Word) (s : State) : (writeCtrl v s).done = s.done := rfl
@[simp] theorem writeCtrl_werr (v : Word) (s : State) : (writeCtrl v s).werr = s.werr := rfl
@[simp] theorem writeCtrl_err (v : Word) (s : State) : (writeCtrl v s).err = s.err := rfl
@[simp] theorem writeCtrl_msgLen (v : Word) (s : State) : (writeCtrl v s).msgLen = s.msgLen := rfl
@[simp] theorem writeCtrl_imgDim (v : Word) (s : State) : (writeCtrl v s).imgDim = s.imgDim := rfl
@[simp] theorem writeCtrl_audNsamp (v : Word) (s : State) : (writeCtrl v s).audNsamp = s.audNsamp := rfl
@[simp] theorem writeCtrl_audFmt (v : Word) (s : State) : (writeCtrl v s).audFmt = s.audFmt := rfl
@[simp] theorem writeCtrl_audRate (v : Word) (s : State) : (writeCtrl v s).audRate = s.audRate := rfl
@[simp] theorem writeCtrl_bitLen (v : Word) (s : State) : (writeCtrl v s).bitLen = s.bitLen := rfl
@[simp] theorem writeCtrl_reqBits (v : Word) (s : State) : (writeCtrl v s).reqBits = s.reqBits := rfl
@[simp] theorem writeCtrl_availBits (v : Word) (s : State) : (writeCtrl v s).availBits = s.availBits := rfl
@[simp] theorem writeCtrl_outLen (v : Word) (s : State) : (writeCtrl v s).outLen = s.outLen := rfl
@[simp] theorem writeCtrl_decInfo (v : Word) (s : State) : (writeCtrl v s).decInfo = s.decInfo := rfl
@[simp] theorem writeCtrl_payloadBits (v : Word) (s : State) : (writeCtrl v s).payloadBits = s.payloadBits := rfl
@[simp] theorem writeCtrl_outAudFmt (v : Word) (s : State) : (writeCtrl v s).outAudFmt = s.outAudFmt := rfl
@[simp] theorem writeCtrl_outAudRate (v : Word) (s : State) : (writeCtrl v s).outAudRate = s.outAudRate := rfl
@[simp] theorem writeCtrl_outAudNsamp (v : Word) (s : State) : (writeCtrl v s).outAudNsamp = s.outAudNsamp := rfl
@[simp] theorem writeCtrl_errInfo (v : Word) (s : State) : (writeCtrl v s).errInfo = s.errInfo := rfl
@[simp] theorem writeCtrl_mem (v : Word) (s : State) : (writeCtrl v s).mem = s.mem := rfl
@[simp] theorem writeCtrl_epoch (v : Word) (s : State) : (writeCtrl v s).epoch = s.epoch := rfl
@[simp] theorem writeCtrl_draws (v : Word) (s : State) : (writeCtrl v s).draws = s.draws := rfl
@[simp] theorem writeCtrl_turns (v : Word) (s : State) : (writeCtrl v s).turns = s.turns := rfl
@[simp] theorem writeCtrl_lastRead (v : Word) (s : State) : (writeCtrl v s).lastRead = s.lastRead := rfl

/-! ### dropWrite -/

@[simp] theorem dropWrite_cfg (s : State) : (dropWrite s).cfg = s.cfg := rfl
@[simp] theorem dropWrite_phase (s : State) : (dropWrite s).phase = s.phase := rfl
@[simp] theorem dropWrite_pending (s : State) : (dropWrite s).pending = s.pending := rfl
@[simp] theorem dropWrite_ie (s : State) : (dropWrite s).ie = s.ie := rfl
@[simp] theorem dropWrite_done (s : State) : (dropWrite s).done = s.done := rfl
@[simp] theorem dropWrite_werr (s : State) : (dropWrite s).werr = true := rfl
@[simp] theorem dropWrite_err (s : State) : (dropWrite s).err = s.err := rfl
@[simp] theorem dropWrite_msgLen (s : State) : (dropWrite s).msgLen = s.msgLen := rfl
@[simp] theorem dropWrite_imgDim (s : State) : (dropWrite s).imgDim = s.imgDim := rfl
@[simp] theorem dropWrite_audNsamp (s : State) : (dropWrite s).audNsamp = s.audNsamp := rfl
@[simp] theorem dropWrite_audFmt (s : State) : (dropWrite s).audFmt = s.audFmt := rfl
@[simp] theorem dropWrite_audRate (s : State) : (dropWrite s).audRate = s.audRate := rfl
@[simp] theorem dropWrite_bitLen (s : State) : (dropWrite s).bitLen = s.bitLen := rfl
@[simp] theorem dropWrite_reqBits (s : State) : (dropWrite s).reqBits = s.reqBits := rfl
@[simp] theorem dropWrite_availBits (s : State) : (dropWrite s).availBits = s.availBits := rfl
@[simp] theorem dropWrite_outLen (s : State) : (dropWrite s).outLen = s.outLen := rfl
@[simp] theorem dropWrite_decInfo (s : State) : (dropWrite s).decInfo = s.decInfo := rfl
@[simp] theorem dropWrite_payloadBits (s : State) : (dropWrite s).payloadBits = s.payloadBits := rfl
@[simp] theorem dropWrite_outAudFmt (s : State) : (dropWrite s).outAudFmt = s.outAudFmt := rfl
@[simp] theorem dropWrite_outAudRate (s : State) : (dropWrite s).outAudRate = s.outAudRate := rfl
@[simp] theorem dropWrite_outAudNsamp (s : State) : (dropWrite s).outAudNsamp = s.outAudNsamp := rfl
@[simp] theorem dropWrite_errInfo (s : State) : (dropWrite s).errInfo = s.errInfo := rfl
@[simp] theorem dropWrite_mem (s : State) : (dropWrite s).mem = s.mem := rfl
@[simp] theorem dropWrite_epoch (s : State) : (dropWrite s).epoch = s.epoch := rfl
@[simp] theorem dropWrite_draws (s : State) : (dropWrite s).draws = s.draws := rfl
@[simp] theorem dropWrite_turns (s : State) : (dropWrite s).turns = s.turns := rfl
@[simp] theorem dropWrite_lastRead (s : State) : (dropWrite s).lastRead = s.lastRead := rfl

end Sys2Proof.Laws
end

