-- ==== Sys2Proof/Laws/Memory.lean ====
section
/-! SUPPORT. The buffer memory: read after write, the canonical form, and little-endian values. -/

namespace Sys2Proof.Laws

open Sys2Proof.Machine

/-! ### One byte -/

theorem byteAt_store (m : Memory) (a : Nat) (b : Byte) (k : Nat) :
    (m.store a b).byteAt k = if k = a then some b else m.byteAt k := by
  induction m with
  | nil => simp [Memory.store, Memory.byteAt]
  | cons c m ih =>
    obtain ⟨c, v⟩ := c
    simp only [Memory.store]
    split_ifs with h1 h2 h3 h3 <;> simp only [Memory.byteAt, ih] <;> split_ifs <;> first | rfl | omega

theorem mem_store {m : Memory} {a : Nat} {b : Byte} {c : Host.Cell} (h : c ∈ m.store a b) : c = (a, b) ∨ c ∈ m := by
  induction m with
  | nil => simpa [Memory.store] using h
  | cons d m ih =>
    obtain ⟨d, v⟩ := d
    simp only [Memory.store] at h
    split_ifs at h with h1 h2
    · simpa using h
    · rcases List.mem_cons.1 h with h | h
      · exact .inl h
      · exact .inr (List.mem_cons_of_mem _ h)
    · rcases List.mem_cons.1 h with h | h
      · exact .inr (h ▸ List.mem_cons_self)
      · exact (ih h).imp_right (List.mem_cons_of_mem _)

theorem store_wf {m : Memory} (h : m.wf) (a : Nat) (b : Byte) : (m.store a b).wf := by
  induction m with
  | nil => simp [Memory.store, Memory.wf]
  | cons c m ih =>
    obtain ⟨c, v⟩ := c
    have hc : ∀ x ∈ m, c < x.1 := (List.pairwise_cons.1 h).1
    have hm : Memory.wf m := (List.pairwise_cons.1 h).2
    simp only [Memory.store]
    split_ifs with h1 h2
    · refine List.pairwise_cons.2 ⟨fun x hx => ?_, h⟩
      rcases List.mem_cons.1 hx with rfl | hx
      · exact h1
      · exact h1.trans (hc x hx)
    · subst h2
      exact List.pairwise_cons.2 ⟨hc, hm⟩
    · refine List.pairwise_cons.2 ⟨fun x hx => ?_, ih hm⟩
      rcases mem_store hx with rfl | hx
      · show c < a
        omega
      · exact hc x hx

/-! ### Sequences of bytes -/

theorem byteAt_storeBytes (m : Memory) (a : Nat) (bs : List Byte) (k : Nat) :
    (m.storeBytes a bs).byteAt k = if a ≤ k ∧ k < a + bs.length then bs[k - a]? else m.byteAt k := by
  induction bs generalizing m a with
  | nil => simp [Memory.storeBytes]
  | cons b bs ih =>
    simp only [Memory.storeBytes, ih, byteAt_store, List.length_cons]
    rcases Nat.lt_trichotomy k a with h | rfl | h
    · rw [if_neg (by omega), if_neg (by omega), if_neg (by omega)]
    · rw [if_neg (by omega), if_pos rfl, if_pos (by omega)]
      simp
    · by_cases h' : k < a + (bs.length + 1)
      · rw [if_pos (by omega), if_pos (by omega), show k - a = (k - (a + 1)) + 1 by omega, List.getElem?_cons_succ]
      · rw [if_neg (by omega), if_neg (by omega), if_neg (by omega)]

theorem storeBytes_wf {m : Memory} (h : m.wf) (a : Nat) (bs : List Byte) : (m.storeBytes a bs).wf := by
  induction bs generalizing m a with
  | nil => exact h
  | cons b bs ih => exact ih (store_wf h a b) (a + 1)

theorem mem_storeBytes {m : Memory} {a : Nat} {bs : List Byte} {c : Host.Cell} (h : c ∈ m.storeBytes a bs) :
    (a ≤ c.1 ∧ c.1 < a + bs.length) ∨ c ∈ m := by
  induction bs generalizing m a with
  | nil => exact .inr h
  | cons b bs ih =>
    rcases ih h with h | h
    · exact .inl (by simp only [List.length_cons]; omega)
    · rcases mem_store h with rfl | h
      · exact .inl (by simp)
      · exact .inr h

theorem byteAt_eq_none {m : Memory} {k : Nat} (h : ∀ c ∈ m, k < c.1) : m.byteAt k = none := by
  induction m with
  | nil => rfl
  | cons c m ih =>
    obtain ⟨c, v⟩ := c
    have hc : k < c := h (c, v) List.mem_cons_self
    simp only [Memory.byteAt]
    rw [if_neg (by omega), ih fun c hc => h c (List.mem_cons_of_mem _ hc)]

/-- Equal memories are equal data: in canonical form, two memories with the same written bytes are the same list. -/
theorem memory_ext {m m' : Memory} (h : m.wf) (h' : m'.wf) (he : ∀ k, m.byteAt k = m'.byteAt k) : m = m' := by
  induction m generalizing m' with
  | nil =>
    cases m' with
    | nil => rfl
    | cons c m' => exact absurd (he c.1) (by simp [Memory.byteAt])
  | cons c m ih =>
    obtain ⟨c, v⟩ := c
    have hm := List.pairwise_cons.1 h
    cases m' with
    | nil => exact absurd (he c) (by simp [Memory.byteAt])
    | cons d m' =>
      obtain ⟨d, w⟩ := d
      have hm' := List.pairwise_cons.1 h'
      have hcd : c = d := by
        have hc := he c
        have hd := he d
        simp only [Memory.byteAt, if_true] at hc hd
        rcases Nat.lt_trichotomy c d with hlt | heq | hlt
        · rw [if_neg (by omega), byteAt_eq_none fun x hx => hlt.trans (hm'.1 x hx)] at hc
          exact absurd hc (by simp)
        · exact heq
        · rw [if_neg (by omega), byteAt_eq_none fun x hx => hlt.trans (hm.1 x hx)] at hd
          exact absurd hd (by simp)
      subst hcd
      have hv : v = w := by simpa [Memory.byteAt] using he c
      subst hv
      rw [ih hm.2 hm'.2 fun k => ?_]
      by_cases hk : k = c
      · subst hk
        rw [byteAt_eq_none hm.1, byteAt_eq_none hm'.1]
      · simpa [Memory.byteAt, hk] using he k

/-! ### The bytes of a state -/

theorem byte_congr {s t : State} (hm : t.mem = s.mem) (he : t.epoch = s.epoch) (a : Nat) : t.byte a = s.byte a := by
  simp [State.byte, hm, he]

theorem byte_storeBytes (s : State) (a : Nat) (bs : List Byte) (k : Nat) :
    (s.storeBytes a bs).byte k = if h : a ≤ k ∧ k < a + bs.length then bs[k - a]'(by omega) else s.byte k := by
  simp only [State.byte, storeBytes_mem, storeBytes_epoch, byteAt_storeBytes]
  split_ifs with h
  · simp [List.getElem?_eq_getElem (show k - a < bs.length by omega)]
  · rfl

theorem byte_storeBytes_in (s : State) (a : Nat) (bs : List Byte) {i : Nat} (h : i < bs.length) :
    (s.storeBytes a bs).byte (a + i) = bs[i] := by
  rw [byte_storeBytes, dif_pos (by omega)]
  simp

theorem byte_storeBytes_out (s : State) (a : Nat) (bs : List Byte) {k : Nat} (h : k < a ∨ a + bs.length ≤ k) :
    (s.storeBytes a bs).byte k = s.byte k := by
  rw [byte_storeBytes, dif_neg (by omega)]

@[simp] theorem bytes_length (s : State) (a n : Nat) : (s.bytes a n).length = n := by simp [State.bytes]

@[simp] theorem bytes_getElem (s : State) (a n i : Nat) (h : i < (s.bytes a n).length) :
    (s.bytes a n)[i] = s.byte (a + i) := by simp [State.bytes]

theorem bytes_succ (s : State) (a n : Nat) : s.bytes a (n + 1) = s.byte a :: s.bytes (a + 1) n := by
  simp only [State.bytes, List.range_succ_eq_map, List.map_cons, List.map_map, Nat.add_zero]
  congr 1
  exact List.map_congr_left fun i _ => by simp [Nat.add_assoc, Nat.add_comm 1]

/-! ### Little-endian values -/

@[simp] theorem leBytes_length (n v : Nat) : (leBytes n v).length = n := by
  induction n generalizing v with
  | zero => rfl
  | succ n ih => simp [leBytes, ih]

theorem leBytes_getElem (n v i : Nat) (h : i < (leBytes n v).length) :
    (leBytes n v)[i] = BitVec.ofNat 8 (v / 256 ^ i) := by
  induction n generalizing v i with
  | zero => simp at h
  | succ n ih =>
    cases i with
    | zero => simp [leBytes]
    | succ i => simp only [leBytes, List.getElem_cons_succ, ih, Nat.div_div_eq_div_mul, ← Nat.pow_succ']

theorem leValue_lt (bs : List Byte) : leValue bs < 256 ^ bs.length := by
  induction bs with
  | nil => simp [leValue]
  | cons b bs ih =>
    have hb : b.toNat < 256 := b.isLt
    simp only [leValue, List.length_cons, Nat.pow_succ]
    omega

theorem leValue_leBytes (n v : Nat) : leValue (leBytes n v) = v % 256 ^ n := by
  induction n generalizing v with
  | zero => simp [leBytes, leValue, Nat.mod_one]
  | succ n ih =>
    simp only [leBytes, leValue, ih, BitVec.toNat_ofNat, Nat.pow_succ']
    exact (Nat.mod_mul (x := v) (a := 256) (b := 256 ^ n)).symm

theorem leBytes_leValue (bs : List Byte) : leBytes bs.length (leValue bs) = bs := by
  induction bs with
  | nil => rfl
  | cons b bs ih =>
    have hb : b.toNat < 256 := b.isLt
    simp only [List.length_cons, leBytes, leValue]
    rw [show (b.toNat + 256 * leValue bs) / 256 = leValue bs by omega, ih]
    congr 1
    apply BitVec.eq_of_toNat_eq
    simp only [BitVec.toNat_ofNat]
    omega

theorem memRead_succ (s : State) (a n : Nat) : memRead s a (n + 1) = (s.byte a).toNat + 256 * memRead s (a + 1) n := by
  simp [memRead, bytes_succ, leValue]

theorem memRead_zero (s : State) (a : Nat) : memRead s a 0 = 0 := rfl

/-- The memory after reset is in canonical form. -/
theorem reset_mem_wf : State.reset.mem.wf := List.Pairwise.nil

/-- A write of a host access or of the engine keeps the canonical form. -/
theorem memWrite_wf {s : State} (h : s.mem.wf) (a n v : Nat) : (memWrite s a n v).mem.wf :=
  storeBytes_wf h a (leBytes n v)

end Sys2Proof.Laws
end

