-- ==== Sys2Proof/Laws/Framer.lean ====
section
/-! SUPPORT. The pure functions of the BitFramer and the codecs: lengths, packing, and LSB substitution. -/

namespace Sys2Proof.Laws

open Sys2Proof.Machine

/-! ### Bits and bytes -/

@[simp] theorem bitsOfByte_length (b : Byte) : (bitsOfByte b).length = 8 := rfl

@[simp] theorem term_length : term.length = 16 := rfl

@[simp] theorem bitsOf_length (msg : List Byte) : (bitsOf msg).length = 8 * msg.length := by
  induction msg with
  | nil => rfl
  | cons b msg ih =>
    simp only [bitsOf, List.flatMap_cons, List.length_append, bitsOfByte_length, List.length_cons] at ih ⊢
    omega

@[simp] theorem frame_length (msg : List Byte) : (frame msg).length = 8 * msg.length + 16 := by
  simp [frame]

theorem bitsOf_cons (b : Byte) (msg : List Byte) : bitsOf (b :: msg) = bitsOfByte b ++ bitsOf msg := rfl

theorem pack8_bits (b : Byte) :
    pack8 (b.getLsbD 7) (b.getLsbD 6) (b.getLsbD 5) (b.getLsbD 4) (b.getLsbD 3) (b.getLsbD 2) (b.getLsbD 1)
      (b.getLsbD 0) = b := by
  revert b
  decide

theorem packBytes_bitsOfByte_append (b : Byte) (s : List Bool) : packBytes (bitsOfByte b ++ s) = b :: packBytes s := by
  exact congrArg (· :: packBytes s) (pack8_bits b)

theorem packBytes_bitsOf_append (msg : List Byte) (s : List Bool) : packBytes (bitsOf msg ++ s) = msg ++ packBytes s := by
  induction msg with
  | nil => rfl
  | cons b msg ih => rw [bitsOf_cons, List.append_assoc, packBytes_bitsOfByte_append, ih, List.cons_append]

theorem packBytes_length (s : List Bool) : (packBytes s).length = s.length / 8 := by
  fun_induction packBytes s with
  | case1 s0 s1 s2 s3 s4 s5 s6 s7 rest ih =>
    simp only [List.length_cons, ih]
    omega
  | case2 s h =>
    match s, h with
    | [], _ | [_], _ | [_, _], _ | [_, _, _], _ | [_, _, _, _], _ | [_, _, _, _, _], _ | [_, _, _, _, _, _], _
    | [_, _, _, _, _, _, _], _ => simp
    | s0 :: s1 :: s2 :: s3 :: s4 :: s5 :: s6 :: s7 :: rest, h => exact absurd rfl (h s0 s1 s2 s3 s4 s5 s6 s7 rest)

/-- The whole bytes of a message before a bit index are what packing its first bits gives. -/
theorem packBytes_take_bitsOf (msg : List Byte) (p : Nat) (h : p ≤ 8 * msg.length) :
    packBytes ((bitsOf msg).take p) = msg.take (p / 8) := by
  induction msg generalizing p with
  | nil =>
    obtain rfl : p = 0 := by simpa using h
    rfl
  | cons b msg ih =>
    rw [bitsOf_cons, List.take_append]
    by_cases hp : p < 8
    · have hl : (packBytes (List.take p (bitsOfByte b) ++ List.take (p - (bitsOfByte b).length) (bitsOf msg))).length = 0 := by
        rw [packBytes_length]
        simp
        omega
      rw [List.length_eq_zero_iff.1 hl, show p / 8 = 0 by omega, List.take_zero]
    · rw [List.take_of_length_le (by simp; omega), packBytes_bitsOfByte_append, bitsOfByte_length,
        ih (p - 8) (by simp at h; omega), show p / 8 = (p - 8) / 8 + 1 by omega, List.take_succ_cons]

/-! ### LSB substitution -/

theorem setLsb8_getLsbD (v : Byte) (b : Bool) (i : Nat) :
    (setLsb v b).getLsbD i = if i = 0 then b else v.getLsbD i := by
  by_cases hi : i < 8
  · have h : ∀ (j : Fin 8) (b : Bool) (v : BitVec 8),
        (setLsb v b).getLsbD j = if (j : Nat) = 0 then b else v.getLsbD j := by decide
    exact h ⟨i, hi⟩ b v
  · rw [if_neg (by omega), BitVec.getLsbD_of_ge _ _ (by omega), BitVec.getLsbD_of_ge _ _ (by omega)]

theorem setLsb16_getLsbD (v : BitVec 16) (b : Bool) (i : Nat) :
    (setLsb v b).getLsbD i = if i = 0 then b else v.getLsbD i := by
  by_cases hi : i < 16
  · have hm : ∀ j : Fin 16, (BitVec.ofNat 16 (2 ^ 16 - 2)).getLsbD j = decide ((j : Nat) ≠ 0) := by decide
    have hb : ∀ (j : Fin 16) (b : Bool), (BitVec.ofNat 16 b.toNat).getLsbD j = (decide ((j : Nat) = 0) && b) := by decide
    rw [setLsb, BitVec.getLsbD_or, BitVec.getLsbD_and, hm ⟨i, hi⟩, hb ⟨i, hi⟩]
    by_cases h0 : i = 0 <;> simp [h0]
  · rw [if_neg (by omega), BitVec.getLsbD_of_ge _ _ (by omega), BitVec.getLsbD_of_ge _ _ (by omega)]

@[simp] theorem embedUnits_length {w : Nat} (us : List (BitVec w)) (bs : List Bool) :
    (embedUnits us bs).length = us.length := by
  fun_induction embedUnits us bs <;> simp_all

/-- The index form of R150. -/
theorem embedUnits_getElem {w : Nat} (us : List (BitVec w)) (bs : List Bool) (k : Nat) (h : k < us.length) :
    (embedUnits us bs)[k]'(by simpa using h) =
      if hb : k < bs.length then setLsb us[k] bs[k] else us[k] := by
  induction us generalizing bs k with
  | nil => simp at h
  | cons u us ih =>
    cases bs with
    | nil => simp [embedUnits]
    | cons b bs =>
      cases k with
      | zero => simp [embedUnits]
      | succ k => simpa [embedUnits] using ih bs k (by simpa using h)

/-! ### Audio samples -/

@[simp] theorem sampleBytes_length (es : List (BitVec 16)) : (sampleBytes es).length = 2 * es.length := by
  induction es with
  | nil => rfl
  | cons e es ih =>
    simp only [sampleBytes, List.flatMap_cons, List.length_append, leBytes_length, List.length_cons] at ih ⊢
    omega

theorem sampleBytes_getElem_low (es : List (BitVec 16)) (i : Nat) (h : i < es.length) :
    (sampleBytes es)[2 * i]'(by simp; omega) = BitVec.ofNat 8 es[i].toNat := by
  induction es generalizing i with
  | nil => simp at h
  | cons e es ih =>
    have he : sampleBytes (e :: es) = BitVec.ofNat 8 e.toNat :: BitVec.ofNat 8 (e.toNat / 256) :: sampleBytes es := rfl
    cases i with
    | zero => simp [he]
    | succ i => simpa [he, Nat.mul_add] using ih i (by simpa using h)

theorem sampleBytes_getElem_high (es : List (BitVec 16)) (i : Nat) (h : i < es.length) :
    (sampleBytes es)[2 * i + 1]'(by simp; omega) = BitVec.ofNat 8 (es[i].toNat / 256) := by
  induction es generalizing i with
  | nil => simp at h
  | cons e es ih =>
    have he : sampleBytes (e :: es) = BitVec.ofNat 8 e.toNat :: BitVec.ofNat 8 (e.toNat / 256) :: sampleBytes es := rfl
    cases i with
    | zero => simp [he]
    | succ i => simpa [he, Nat.mul_add] using ih i (by simpa using h)

@[simp] theorem audSamples_length (s : State) (base n : Nat) : (audSamples s base n).length = n := by simp [audSamples]

@[simp] theorem audSamples_getElem (s : State) (base n i : Nat) (h : i < (audSamples s base n).length) :
    (audSamples s base n)[i] = audSample s base i := by simp [audSamples]

/-- A sample's pattern is its low byte and, above it, its high byte (R69). -/
theorem audSample_toNat (s : State) (base i : Nat) :
    (audSample s base i).toNat = (s.byte (base + 2 * i)).toNat + 256 * (s.byte (base + 2 * i + 1)).toNat := by
  have h0 := (s.byte (base + 2 * i)).isLt
  have h1 := (s.byte (base + 2 * i + 1)).isLt
  simp only [audSample, memRead_succ, memRead_zero, BitVec.toNat_ofNat]
  omega

/-! ### LSB streams and the bits of BBUF -/

@[simp] theorem lsbImg_length (s : State) (base n : Nat) : (lsbImg s base n).length = n := by simp [lsbImg]

@[simp] theorem lsbAud_length (s : State) (base n : Nat) : (lsbAud s base n).length = n := by simp [lsbAud]

@[simp] theorem bbufBits_length (s : State) (n : Nat) : (bbufBits s n).length = n := by simp [bbufBits]

/-- What an extraction takes out is at most an eighth of what it scans, and fits the payload (R114). -/
theorem deframe_out_length (s : List Bool) : (deframe s).out.length = (deframe s).payload / 8 := by
  unfold deframe
  split
  · next p hp =>
    have hle : p ≤ s.length := by
      clear * - hp
      induction s generalizing p with
      | nil => simp [findTerm] at hp
      | cons b s ih =>
        simp only [findTerm] at hp
        split_ifs at hp
        · obtain rfl : 0 = p := by simpa using hp
          exact Nat.zero_le _
        · obtain ⟨q, hq, rfl⟩ := Option.map_eq_some_iff.1 hp
          have := ih q hq
          simp
          omega
    simp [packBytes_length, Nat.min_eq_left hle]
  · simp [packBytes_length]

/-- A message has L bytes (R32). -/
@[simp] theorem message_length (s : State) : (message s).length = opL s := by simp [message]

/-- A terminator that is found stands whole in the sequence. -/
theorem findTerm_bound {s : List Bool} {p : Nat} (h : findTerm s = some p) :
    p + 16 ≤ s.length ∧ (s.drop p).take 16 = term := by
  induction s generalizing p with
  | nil => simp [findTerm] at h
  | cons b s ih =>
    simp only [findTerm] at h
    split_ifs at h with hp
    · obtain rfl : 0 = p := by simpa using h
      obtain ⟨r, hr⟩ := List.isPrefixOf_iff_prefix.1 hp
      rw [List.drop_zero, ← hr]
      exact ⟨by simp, List.take_left' rfl⟩
    · obtain ⟨q, hq, rfl⟩ := Option.map_eq_some_iff.1 h
      have := ih hq
      simp only [List.length_cons, List.drop_succ_cons]
      exact ⟨by omega, this.2⟩

/-- The payload is part of the sequence. -/
theorem deframe_payload_le (s : List Bool) : (deframe s).payload ≤ s.length := by
  unfold deframe
  split
  · next p hp =>
    have := (findTerm_bound hp).1
    simp only
    omega
  · simp

theorem decInfoWord_toNat (found : Bool) (p : Nat) : (decInfoWord found p).toNat = (p % 8) * 2 + found.toNat := by
  simp only [decInfoWord, BitVec.toNat_ofNat]
  have := found.toNat_le
  omega

end Sys2Proof.Laws
end

