-- ==== Sys2Proof/Laws/Extract.lean ====
section
/-! SUPPORT. What the shared end of the three decoding commands (R115) leaves. -/

namespace Sys2Proof.Laws

open Sys2Proof.Machine

/-- A completed decode of a bit sequence that the registers can count. -/
theorem emitDecoded_spec {s : State} {bits : List Bool} (hb : bits.length < 2 ^ 32) :
    Decoded s (completeOk (emitDecoded (deframe bits) s)) bits := by
  have hp := deframe_payload_le bits
  have ho := deframe_out_length bits
  refine ⟨rfl, ?_, ?_, ?_, ?_, ?_, ?_, ?_⟩
  · show (BitVec.ofNat 32 (deframe bits).out.length).toNat = _
    rw [BitVec.toNat_ofNat]
    omega
  · show (BitVec.ofNat 32 (deframe bits).payload).toNat = _
    rw [BitVec.toNat_ofNat]
    omega
  · show (decInfoWord _ _).getLsbD 0 = _
    simp only [BitVec.getLsbD, decInfoWord_toNat, Nat.testBit_zero]
    cases (deframe bits).found <;> simp
  · show ((decInfoWord _ _).extractLsb' 1 3).toNat = _
    simp only [BitVec.extractLsb'_toNat, decInfoWord_toNat, Nat.shiftRight_eq_div_pow]
    cases (deframe bits).found <;> simp <;> omega
  · show (decInfoWord _ _).toNat < _
    rw [decInfoWord_toNat]
    cases (deframe bits).found <;> simp <;> omega
  · intro j h
    exact byte_storeBytes_in s _ _ h
  · intro a ha
    exact byte_storeBytes_out s _ _ ha

end Sys2Proof.Laws
end

