-- ==== Sys2Proof/Laws/HostPort.lean ====
section
/-! SUPPORT. What a host access can reach and what it can do. -/

namespace Sys2Proof.Laws

open Sys2Proof.Machine

theorem sizeBytes_pos (z : Size) : 0 < sizeBytes z := by cases z <;> decide

theorem sizeBytes_le (z : Size) : sizeBytes z ≤ 4 := by cases z <;> decide

@[simp] theorem regAt_regOffset (r : Reg) : regAt (regOffset r) = some r := by cases r <;> decide

theorem regAt_eq_some {off : Nat} {r : Reg} (h : regAt off = some r) : regOffset r = off := by
  simpa using List.find?_some h

theorem regAt_eq_none {off : Nat} (h : regAt off = none) (r : Reg) : regOffset r ≠ off := by
  have := List.find?_eq_none.1 h r (by cases r <;> decide)
  simpa using this

theorem bufOfWindow_eq_some {top : Nat} {b : Buf} (h : bufOfWindow top = some b) : bufBase b = top * 2 ^ 24 := by
  unfold bufOfWindow at h
  split_ifs at h <;> (obtain rfl := Option.some.inj h; subst_vars; rfl)

/-- A target that is a register: an aligned 32-bit access at the register's offset (R63). -/
theorem target_reg {c : Config} {address : Word} {size : Size} {r : Reg} (h : target c address size = some (.reg r)) :
    address.toNat = regOffset r ∧ size = .b32 := by
  simp only [target] at h
  split at h
  · split at h
    · next hs =>
      split at h
      · next r' hr =>
        obtain rfl : r' = r := by simpa using h
        exact ⟨(regAt_eq_some hr).symm, hs.1⟩
      · simp at h
    · simp at h
  · split at h
    · simp at h
    · split at h <;> simp at h

/-- A target that is reserved: an aligned 32-bit access of the register window where no register is (R49, R63). -/
theorem target_reserved {c : Config} {address : Word} {size : Size} (h : target c address size = some .reserved) :
    address.toNat < 0x100 ∧ address.toNat % 4 = 0 ∧ (∀ r, regOffset r ≠ address.toNat) ∧ size = .b32 := by
  simp only [target] at h
  split at h
  · next hw =>
    split at h
    · next hs =>
      split at h
      · simp at h
      · next hr => exact ⟨hw, hs.2, regAt_eq_none hr, hs.1⟩
    · simp at h
  · split at h
    · simp at h
    · split at h <;> simp at h

/-- A target in a buffer: an aligned access that lies wholly inside the implemented buffer (R64). -/
theorem target_buffer {c : Config} {address : Word} {size : Size} {b : Buf} {off : Nat}
    (h : target c address size = some (.buffer b off)) :
    address.toNat = bufBase b + off ∧ off + sizeBytes size ≤ bufSize c b ∧ address.toNat % sizeBytes size = 0 := by
  simp only [target] at h
  split at h
  · split at h
    · split at h <;> simp at h
    · simp at h
  · split at h
    · simp at h
    · next b' hb =>
      split at h
      · next hs =>
        obtain ⟨rfl, rfl⟩ : b' = b ∧ address.toNat % 2 ^ 24 = off := by simpa using h
        refine ⟨?_, hs.2, hs.1⟩
        have := bufOfWindow_eq_some hb
        omega
      · simp at h

/-- What a host read that is answered can be: a free value of an output location while BUSY, or the stored value. -/
theorem hostRead_next {address : Word} {size : Size} {s t : State} (h : hostRead address size s = .next t) :
    ∃ tg, target s.cfg address size = some tg ∧
      ((s.phase = .busy ∧ isOutput tg = true ∧
          t = { s with lastRead := some (freeReadData s size), draws := s.draws + 1 }) ∨
        (¬(s.phase = .busy ∧ isOutput tg = true) ∧ t = { s with lastRead := some (readTarget tg size s) })) := by
  simp only [hostRead] at h
  split at h
  · simp at h
  · next tg htg =>
    refine ⟨tg, htg, ?_⟩
    split at h
    · next hb => exact .inl ⟨hb.1, hb.2, (Host.Outcome.next.inj h).symm⟩
    · next hb => exact .inr ⟨hb, (Host.Outcome.next.inj h).symm⟩

/-- What a host write that is answered can be: dropped while BUSY, or done. -/
theorem hostWrite_next {address : Word} {size : Size} {v : Word} {s t : State}
    (h : hostWrite address size v s = .next t) :
    ∃ tg, target s.cfg address size = some tg ∧
      ((s.phase = .busy ∧ exemptFromDrop tg = false ∧ t = dropWrite s) ∨
        (¬(s.phase = .busy ∧ exemptFromDrop tg = false) ∧ t = writeTarget tg size v s)) := by
  simp only [hostWrite] at h
  split at h
  · simp at h
  · next tg htg =>
    refine ⟨tg, htg, ?_⟩
    split at h
    · next hb => exact .inl ⟨hb.1, hb.2, (Host.Outcome.next.inj h).symm⟩
    · next hb => exact .inr ⟨hb, (Host.Outcome.next.inj h).symm⟩

/-- A legal configuration's buffers fit their windows (R7). -/
theorem bufSize_le {c : Config} (h : c.wf = true) (b : Buf) : bufSize c b ≤ 2 ^ 24 := by
  simp only [Config.wf, Bool.and_eq_true, decide_eq_true_eq] at h
  cases b <;> simp only [bufSize] <;> omega

/-- A register's address reaches that register (R23, R63). -/
theorem target_regOffset (c : Config) (r : Reg) : target c (BitVec.ofNat 32 (regOffset r)) .b32 = some (.reg r) := by
  have h : regOffset r < 2 ^ 32 ∧ regOffset r < 0x100 ∧ regOffset r % 4 = 0 := by cases r <;> decide
  have e : (BitVec.ofNat 32 (regOffset r)).toNat = regOffset r := by
    rw [BitVec.toNat_ofNat, Nat.mod_eq_of_lt h.1]
  simp only [target, e, if_pos h.2.1, h.2.2, if_true, and_true, regAt_regOffset]

theorem bufOfWindow_bufBase (b : Buf) : bufOfWindow (bufBase b / 2 ^ 24) = some b := by cases b <;> decide

theorem bufBase_mod (b : Buf) : bufBase b % 2 ^ 24 = 0 := by cases b <;> decide

theorem le_bufBase (b : Buf) : 2 ^ 24 ≤ bufBase b := by cases b <;> decide

/-- A legal part's access reaches a byte of a buffer exactly when it is aligned and lies wholly inside that buffer
(R64, R66). -/
theorem target_eq_buffer_iff {c : Config} (hc : c.wf = true) {address : Word} {size : Size} {b : Buf} {off : Nat} :
    target c address size = some (.buffer b off) ↔
      address.toNat = bufBase b + off ∧ off + sizeBytes size ≤ bufSize c b ∧ address.toNat % sizeBytes size = 0 := by
  refine ⟨target_buffer, fun ⟨ha, hs, hm⟩ => ?_⟩
  have := bufSize_le hc b
  have := sizeBytes_pos size
  have := bufBase_mod b
  have := le_bufBase b
  have hw : ¬address.toNat < 0x100 := by omega
  have ho : address.toNat % 2 ^ 24 = off := by omega
  have hd : address.toNat / 2 ^ 24 = bufBase b / 2 ^ 24 := by omega
  simp only [target, if_neg hw, hd, bufOfWindow_bufBase, ho, if_pos (And.intro hm hs)]

end Sys2Proof.Laws
end

