-- ==== Sys2Proof/Laws/Ops.lean ====
section
/-! SUPPORT. What a command can do: every meaning is `complete` of its pseudocode, and what each pseudocode ends in. -/

namespace Sys2Proof.Laws

open Sys2Proof.Machine

/-- The completion step always answers a next state: the staged writes committed, or the error taken (R42). -/
theorem complete_next_iff {s t : State} {r : Except CmdError State} :
    complete s r = .next t ↔
      (∃ u, r = .ok u ∧ t = completeOk u) ∨ (∃ e, r = .error e ∧ t = raiseError e s) := by
  cases r <;> simp [complete, eq_comm]

/-- The pseudocode of each command. -/
def effect (i : Instr) (s : State) : Except CmdError State :=
  match i with
  | .frameEncode => frameEncodeEffect s
  | .frameDecode => frameDecodeEffect s
  | .imgCapacity => .ok (setAvail (imgUnits s) s)
  | .audCapacity => .ok (setAvail (capAud (opN s)) s)
  | .imgValidate => validateEffect (imgUnits s) s
  | .audValidate => validateEffect (capAud (opN s)) s
  | .imgEmbed => imgEmbedEffect s
  | .imgExtract src => imgExtractEffect src s
  | .audEmbed => audEmbedEffect s
  | .audExtract src => audExtractEffect src s

theorem exec_eq_complete (i : Instr) (s : State) : exec i s = complete s (effect i s) := by
  cases i <;> rfl

/-- What an execution of any command is: its committed writes, or its error taken on the state before it. -/
theorem exec_next_iff {i : Instr} {s t : State} :
    exec i s = .next t ↔
      (∃ u, effect i s = .ok u ∧ t = completeOk u) ∨ (∃ e, effect i s = .error e ∧ t = raiseError e s) := by
  rw [exec_eq_complete, complete_next_iff]

theorem frameEncodeEffect_ok_iff {s u : State} :
    frameEncodeEffect s = .ok u ↔
      (opL s ≤ s.cfg.nMbuf ∧ opL s + 2 ≤ s.cfg.nBbuf) ∧
        u = { s.storeBytes (bufBase .bbuf) (packBytes (frame (message s))) with
          bitLen := BitVec.ofNat 32 (8 * opL s + 16) } := by
  simp only [frameEncodeEffect]
  split_ifs with h
  · simp only [false_iff]
    omega
  · simp only [Except.ok.injEq, eq_comm (a := u)]
    exact ⟨fun hu => ⟨by omega, hu⟩, fun hu => hu.2⟩

theorem frameDecodeEffect_ok_iff {s u : State} :
    frameDecodeEffect s = .ok u ↔
      opBits s ≤ 8 * s.cfg.nBbuf ∧ u = emitDecoded (deframe (bbufBits s (opBits s))) s := by
  simp only [frameDecodeEffect]
  split_ifs with h
  · simp only [false_iff]
    omega
  · simp only [Except.ok.injEq, eq_comm (a := u)]
    exact ⟨fun hu => ⟨by omega, hu⟩, fun hu => hu.2⟩

theorem validateEffect_ok_iff {avail : Nat} {s u : State} :
    validateEffect avail s = .ok u ↔ required (opL s) ≤ avail ∧ u = setReqAvail (required (opL s)) avail s := by
  simp only [validateEffect]
  split_ifs with h
  · simp only [false_iff]
    omega
  · simp only [Except.ok.injEq, eq_comm (a := u)]
    exact ⟨fun hu => ⟨by omega, hu⟩, fun hu => hu.2⟩

theorem imgEmbedEffect_ok_iff {s u : State} :
    imgEmbedEffect s = .ok u ↔
      (opL s ≤ s.cfg.nMbuf ∧ imgUnits s ≤ s.cfg.nCbuf ∧ required (opL s) ≤ imgUnits s) ∧
        u = setReqAvail (required (opL s)) (imgUnits s)
          (s.storeBytes (bufBase .obuf) (embedUnits (s.bytes (bufBase .cbuf) (imgUnits s)) (frame (message s)))) := by
  simp only [imgEmbedEffect]
  split_ifs with h1 h2
  · simp only [false_iff]
    omega
  · simp only [false_iff]
    omega
  · simp only [Except.ok.injEq, eq_comm (a := u)]
    exact ⟨fun hu => ⟨by omega, hu⟩, fun hu => hu.2⟩

theorem imgExtractEffect_ok_iff {src : Src} {s u : State} :
    imgExtractEffect src s = .ok u ↔
      imgUnits s ≤ s.cfg.nCbuf ∧ u = emitDecoded (deframe (lsbImg s (opBase src) (imgUnits s))) s := by
  simp only [imgExtractEffect]
  split_ifs with h
  · simp only [false_iff]
    omega
  · simp only [Except.ok.injEq, eq_comm (a := u)]
    exact ⟨fun hu => ⟨by omega, hu⟩, fun hu => hu.2⟩

theorem audEmbedEffect_ok_iff {s u : State} :
    audEmbedEffect s = .ok u ↔
      (audioFormatOk s = true ∧ opL s ≤ s.cfg.nMbuf ∧ 2 * opN s ≤ s.cfg.nCbuf ∧ required (opL s) ≤ capAud (opN s)) ∧
        u = echoStream (setReqAvail (required (opL s)) (opN s)
          (s.storeBytes (bufBase .obuf)
            (sampleBytes (embedUnits (audSamples s (bufBase .cbuf) (opN s)) (frame (message s)))))) := by
  cases hf : audioFormatOk s
  · simp [audEmbedEffect, hf]
  · simp only [audEmbedEffect, hf, Bool.true_eq_false, if_false]
    split_ifs with h1 h2
    · simp only [false_iff]
      omega
    · simp only [false_iff]
      omega
    · simp only [Except.ok.injEq, eq_comm (a := u)]
      exact ⟨fun hu => ⟨⟨trivial, by omega⟩, hu⟩, fun hu => hu.2⟩

theorem audExtractEffect_ok_iff {src : Src} {s u : State} :
    audExtractEffect src s = .ok u ↔
      (audioFormatOk s = true ∧ 2 * opN s ≤ s.cfg.nCbuf) ∧
        u = emitDecoded (deframe (lsbAud s (opBase src) (opN s))) s := by
  cases hf : audioFormatOk s
  · simp [audExtractEffect, hf]
  · simp only [audExtractEffect, hf, Bool.true_eq_false, if_false]
    split_ifs with h1
    · simp only [false_iff]
      omega
    · simp only [Except.ok.injEq, eq_comm (a := u)]
      exact ⟨fun hu => ⟨⟨trivial, by omega⟩, hu⟩, fun hu => hu.2⟩

/-- An error's info is of one of four shapes, and each command raises only the errors R190 lists for it. -/
theorem effect_error {i : Instr} {s : State} {e : CmdError} (h : effect i s = .error e) :
    e = .unsupportedFormat (opCh s) (opSw s) ∨ e = .range ∨
      ∃ avail, e = .capacity (required (opL s)) avail ∧ (avail = imgUnits s ∨ avail = opN s) := by
  cases i <;>
    simp only [effect, frameEncodeEffect, frameDecodeEffect, validateEffect, imgEmbedEffect, imgExtractEffect,
      audEmbedEffect, audExtractEffect] at h
  all_goals repeat' split at h
  all_goals simp only [reduceCtorEq, Except.error.injEq] at h
  all_goals subst h
  all_goals simp [capAud]

end Sys2Proof.Laws
end

