-- ==== Sys2Proof/Laws/PerInstr.lean ====
section
/-! SUPPORT. Facts about each command as syntax. -/

namespace Sys2Proof.Laws

namespace RoundTrip

/-- Decoding the word of a command gives the command back (R95, R97). -/
def Statement (i : Instr) : Prop := decode (encode i) = .ok i

theorem frameEncode : Statement .frameEncode := rfl

theorem frameDecode : Statement .frameDecode := rfl

theorem imgCapacity : Statement .imgCapacity := rfl

theorem audCapacity : Statement .audCapacity := rfl

theorem imgValidate : Statement .imgValidate := rfl

theorem audValidate : Statement .audValidate := rfl

theorem imgEmbed : Statement .imgEmbed := rfl

theorem imgExtract (src : Src) : Statement (.imgExtract src) := by cases src <;> rfl

theorem audEmbed : Statement .audEmbed := rfl

theorem audExtract (src : Src) : Statement (.audExtract src) := by cases src <;> rfl

end RoundTrip

end Sys2Proof.Laws
end

