-- ==== Sys2Proof/Laws/Step.lean ====
section
/-! SUPPORT. What one step can do: one inversion lemma, from which every whole-machine claim starts. -/

namespace Sys2Proof.Laws

open Sys2Proof.Machine

/-- What an engine's turn can be: nothing while IDLE, or the completion of a command or of an illegal word. -/
theorem engineTurn_next {s t : State} (h : engineTurn s = .next t) :
    (s.phase = .idle ∧ t = s) ∨
      (s.phase = .busy ∧
        ((∃ i, decode s.pending = .ok i ∧ exec i s = .next t) ∨
          ((∃ e, decode s.pending = .error e) ∧ t = raiseError .illegalCommand s))) := by
  unfold engineTurn at h
  split at h
  · next hp =>
    refine .inr ⟨hp, ?_⟩
    unfold completionStep at h
    split at h
    · next i hi => exact .inl ⟨i, hi, h⟩
    · next e he => exact .inr ⟨⟨e, he⟩, (Host.Outcome.next.inj h).symm⟩
  · next hp => exact .inl ⟨hp, (Host.Outcome.next.inj h).symm⟩

/-- What a step that is answered can be: the engine's turn with the list used up, or the first turn of the list. -/
theorem step_next {s t : State} (h : step s = .next t) :
    s.cfg.wf = true ∧
      ((s.turns = [] ∧ engineTurn s = .next t) ∨
        ∃ ts, (s.turns = .engine :: ts ∧ engineTurn { s with turns := ts } = .next t) ∨
          (∃ a, s.turns = .host a :: ts ∧ hostAccess a { s with turns := ts } = .next t) ∨
          (s.turns = .reset :: ts ∧ t = resetEngine { s with turns := ts })) := by
  unfold step at h
  split at h
  · next hw =>
    refine ⟨hw, ?_⟩
    unfold nextTurn at h
    split at h
    · next ht => exact .inl ⟨ht, h⟩
    · next turn ts ht =>
      refine .inr ⟨ts, ?_⟩
      cases turn with
      | host a => exact .inr (.inl ⟨a, ht, h⟩)
      | engine => exact .inl ⟨ht, h⟩
      | reset => exact .inr (.inr ⟨ht, (Host.Outcome.next.inj h).symm⟩)
  · simp at h

/-- The constraints of a configuration, in the words of R7. -/
theorem cfg_wf_iff {c : Config} :
    c.wf = true ↔
      (1 ≤ c.nCbuf ∧ c.nCbuf ≤ 2 ^ 24) ∧ (1 ≤ c.nMbuf ∧ c.nMbuf ≤ 2 ^ 24) ∧ (2 ≤ c.nBbuf ∧ c.nBbuf ≤ 2 ^ 24) ∧
        (c.nBbuf ≤ c.nTbuf ∧ c.nCbuf / 8 ≤ c.nTbuf ∧ c.nTbuf ≤ 2 ^ 24) := by
  simp only [Config.wf, Bool.and_eq_true, decide_eq_true_eq, max_le_iff]
  tauto

/-- A step with the engine's turn first, or with the list used up, is the engine's turn. -/
theorem step_engine {s : State} {ts : List Turn} (hw : s.cfg.wf = true) (ht : s.turns = .engine :: ts) :
    step s = engineTurn { s with turns := ts } := by
  simp [step, hw, nextTurn, ht, takeTurn]

theorem step_host {s : State} {a : Access} {ts : List Turn} (hw : s.cfg.wf = true) (ht : s.turns = .host a :: ts) :
    step s = hostAccess a { s with turns := ts } := by
  simp [step, hw, nextTurn, ht, takeTurn]

theorem step_reset {s : State} {ts : List Turn} (hw : s.cfg.wf = true) (ht : s.turns = .reset :: ts) :
    step s = .next (resetEngine { s with turns := ts }) := by
  simp [step, hw, nextTurn, ht, takeTurn]

theorem step_empty {s : State} (hw : s.cfg.wf = true) (ht : s.turns = []) : step s = engineTurn s := by
  simp [step, hw, nextTurn, ht]

/-- `step_host`, with the turn written into the state. -/
theorem step_host_turn (s : State) (a : Access) (ts : List Turn) (hw : s.cfg.wf = true) :
    step { s with turns := .host a :: ts } = hostAccess a { s with turns := ts } :=
  step_host (s := { s with turns := .host a :: ts }) hw rfl

/-- What a completion step can be. -/
theorem completionStep_next {s t : State} (h : completionStep s = .next t) :
    (∃ i, decode s.pending = .ok i ∧ exec i s = .next t)
      ∨ ((∃ e, decode s.pending = .error e) ∧ t = raiseError .illegalCommand s) := by
  unfold completionStep at h
  split at h
  · exact .inl ⟨_, ‹_›, h⟩
  · exact .inr ⟨⟨_, ‹_›⟩, (Host.Outcome.next.inj h).symm⟩

end Sys2Proof.Laws
end

