-- ==== Sys2Proof/Machine/Script.lean ====
section
/-! DEFINITION. The host script (R101 to R105): its lines and the bus accesses each expands to. -/

namespace Sys2Proof.Machine

/-- One item of a LOADMSG text: a character, or a byte spelt as an escape `\xHH` (R104). -/
inductive TextItem where
  | char (c : Char)
  | escape (b : Byte)
deriving DecidableEq, Repr

/-- The byte of a text item: a character's ASCII code, or the escape's byte (R104). -/
def textByte : TextItem → Byte
  | .char c => BitVec.ofNat 8 c.toNat
  | .escape b => b

/-- A text item that LOADMSG takes: characters 0x20 to 0x7E, and every escape (R104). -/
def textItemOk : TextItem → Bool
  | .char c => decide (0x20 ≤ c.toNat) && decide (c.toNat ≤ 0x7E)
  | .escape _ => true

/-- A line of a host script: a bus operation (R102) or a pseudo-instruction (R104). `wait` and `run` say how many
reads of STATUS the host makes before the engine's turn: WAIT is "the only line whose number of transactions depends
on the run" (R105; log 15). -/
inductive Line where
  | access (a : Access)
  | issue (i : Instr)
  | wait (polls : Nat)
  | ack
  | clrWerr
  | setImg (w h : Nat)
  | setAud (n : Word) (ch sw : Byte) (comp : BitVec 16) (rate : Word)
  | loadMsg (bytes : List Byte)
  | loadText (text : List TextItem)
  | loadBytes (base : Word) (bytes : List Byte)
  | loadSamples (base : Word) (samples : List Int)
  | run (i : Instr) (polls : Nat)
deriving DecidableEq, Repr

/-- What R104 asks of a line's operands. -/
def Line.wf : Line → Bool
  | .setImg w h => decide (w ≤ 65535) && decide (h ≤ 65535)
  | .loadText text => text.all textItemOk
  | .loadSamples _ samples => samples.all fun x => decide (-32768 ≤ x) && decide (x ≤ 32767)
  | _ => true

/-- The host address of a register, which its name stands for (R101). -/
def regAddress (r : Reg) : Word := BitVec.ofNat 32 (regOffset r)

/-- The host address of a buffer's byte 0, which its name stands for (R101). -/
def bufAddress (b : Buf) : Word := BitVec.ofNat 32 (bufBase b)

/-- `W32 r, v` for a register. -/
def writeRegTurn (r : Reg) (v : Word) : Turn := .host (.write (regAddress r) .b32 v)

/-- `W8 base+j, bj` for each j in order (R104). -/
def byteTurns (base : Word) : List Byte → List Turn
  | [] => []
  | b :: bs => .host (.write base .b8 (b.setWidth 32)) :: byteTurns (base + 1) bs

/-- `W16 base+2i, trunc_16(si)` for each i in order (R104). -/
def sampleTurns (base : Word) : List Int → List Turn
  | [] => []
  | x :: xs => .host (.write base .b16 ((BitVec.ofInt 16 x).setWidth 32)) :: sampleTurns (base + 2) xs

/-- The host's part of WAIT and the engine's turn in it: `polls` reads of STATUS while the command runs, the
completion, and the read that sees BUSY = 0 (R104). -/
def waitTurns (polls : Nat) : List Turn :=
  let poll : Turn := .host (.read (regAddress .status) .b32)
  List.replicate polls poll ++ [.engine, poll]

/-- The message of LOADMSG: its bytes, then MSG_LEN (R104). -/
def messageTurns (bytes : List Byte) : List Turn :=
  byteTurns (bufAddress .mbuf) bytes ++ [writeRegTurn .msgLen (BitVec.ofNat 32 bytes.length)]

/-- The turns a line expands to (R102, R104). -/
def Line.turns : Line → List Turn
  | .access a => [.host a]
  | .issue i => [writeRegTurn .cmd (encode i)]
  | .wait polls => waitTurns polls
  | .ack => [writeRegTurn .status 0x00000002#32]
  | .clrWerr => [writeRegTurn .status 0x00000004#32]
  | .setImg w h => [writeRegTurn .imgDim (BitVec.ofNat 32 (h * 2 ^ 16 + w))]
  | .setAud n ch sw comp rate =>
    [writeRegTurn .audNsamp n, writeRegTurn .audFmt (comp ++ (sw ++ ch : BitVec 16)), writeRegTurn .audRate rate]
  | .loadMsg bytes => messageTurns bytes
  | .loadText text => messageTurns (text.map textByte)
  | .loadBytes base bytes => byteTurns base bytes
  | .loadSamples base samples => sampleTurns base samples
  | .run i polls => writeRegTurn .cmd (encode i) :: waitTurns polls

/-- The encoding of a host script (R105). -/
def scriptTurns (script : List Line) : List Turn := script.flatMap Line.turns

/-- The state with a host script to run: the program is the host's, placed from outside (R21, R103; log 5). -/
def withScript (script : List Line) (s : State) : State := { s with turns := scriptTurns script }

end Sys2Proof.Machine
end

