-- ==== Sys2Proof/Tests/Slice0.lean ====
section
/-! SUPPORT. Tests, with expected results from spec/95_test_vectors.md or worked from the rules by hand, and a witness
for the hypotheses of every statement. -/

namespace Sys2Proof.Tests

open Sys2Proof.Machine

/-! ### Helpers -/

/-- The next state, if there is one. -/
def nx : Host.Outcome State Fault Refusal → Option State
  | .next t => some t
  | _ => none

/-- The fault, if there is one. -/
def flt : Host.Outcome State Fault Refusal → Option Fault
  | .fault f => some f
  | _ => none

/-- The next state of an outcome that has one. -/
def after (o : Host.Outcome State Fault Refusal) : State := (nx o).getD State.reset

/-- An outcome that has a next state is that next state. -/
theorem next_after {o : Host.Outcome State Fault Refusal} (h : (nx o).isSome = true) : o = .next (after o) := by
  cases o <;> simp_all [nx, after]

/-- The written bytes at the start of a buffer. -/
def content (t : State) (b : Buf) (n : Nat) : List (Option Byte) :=
  (List.range n).map fun i => t.mem.byteAt (bufBase b + i)

/-- A state with bytes in a buffer. -/
def load (b : Buf) (bytes : List Byte) (s : State) : State := s.storeBytes (bufBase b) bytes

/-- A state with a message in MBUF. -/
def withMessage (bytes : List Byte) (s : State) : State :=
  { load .mbuf bytes s with msgLen := BitVec.ofNat 32 bytes.length }

/-- A state whose next turn is one host access. -/
def hostTurn (a : Access) (s : State) : State := { s with turns := [.host a] }

/-- The data of one host read. -/
def readData (a : Word) (z : Size) (s : State) : Option Word := (after (step (hostTurn (.read a z) s))).lastRead

/-- The state after one host write. -/
def written (a : Word) (z : Size) (v : Word) (s : State) : State := after (step (hostTurn (.write a z v) s))

/-- The engine running a word. -/
def busy (w : Word) (s : State) : State := commandStart w s

/-! ### Ill-formed configurations and script lines are refused (R7, R104) -/

theorem test_wf_k1 : Config.k1.wf = true := by decide
theorem test_wf_least : Config.wf ⟨1, 1, 2, 2⟩ = true := by decide
theorem test_wf_greatest : Config.wf ⟨2 ^ 24, 2 ^ 24, 2 ^ 24, 2 ^ 24⟩ = true := by decide
theorem test_illformed_no_cbuf : Config.wf ⟨0, 64, 64, 64⟩ = false := by decide
theorem test_illformed_cbuf_too_large : Config.wf ⟨2 ^ 24 + 1, 64, 64, 2 ^ 24⟩ = false := by decide
theorem test_illformed_no_mbuf : Config.wf ⟨512, 0, 64, 64⟩ = false := by decide
theorem test_illformed_mbuf_too_large : Config.wf ⟨512, 2 ^ 24 + 1, 64, 64⟩ = false := by decide
theorem test_illformed_bbuf_too_small : Config.wf ⟨512, 64, 1, 64⟩ = false := by decide
theorem test_illformed_bbuf_too_large : Config.wf ⟨512, 64, 2 ^ 24 + 1, 2 ^ 24 + 1⟩ = false := by decide
theorem test_illformed_tbuf_below_bbuf : Config.wf ⟨8, 64, 64, 63⟩ = false := by decide
theorem test_illformed_tbuf_below_cbuf : Config.wf ⟨520, 64, 64, 64⟩ = false := by decide
theorem test_illformed_tbuf_too_large : Config.wf ⟨512, 64, 64, 2 ^ 24 + 1⟩ = false := by decide
theorem test_illformed_line_width : (Line.setImg 65536 1).wf = false := by decide
theorem test_illformed_line_height : (Line.setImg 1 65536).wf = false := by decide
theorem test_illformed_line_text : (Line.loadText [.char (Char.ofNat 0x7F)]).wf = false := by decide
theorem test_illformed_line_sample : (Line.loadSamples 0 [32768]).wf = false := by decide
theorem test_wellformed_lines :
    (Line.setImg 65535 65535).wf = true ∧ (Line.loadText [.char 'H', .escape 0xFF#8]).wf = true
      ∧ (Line.loadSamples 0 [-32768, 32767]).wf = true := by decide
theorem test_every_command_is_wellformed :
    [Instr.frameEncode, .frameDecode, .imgCapacity, .audCapacity, .imgValidate, .audValidate, .imgEmbed,
      .imgExtract .cbuf, .imgExtract .obuf, .audEmbed, .audExtract .cbuf, .audExtract .obuf].all Instr.wf = true := by
  decide

/-! ### Decoding: words written out from R90, R92 and R94 -/

theorem test_decode_frameEncode : decodeTableWord 32 0b0000000_00000000_00000000_0_00000001 = some .frameEncode := by
  decide
theorem test_decode_frameDecode : decodeTableWord 32 0b0000000_00000000_00000000_0_00000010 = some .frameDecode := by
  decide
theorem test_decode_imgCapacity : decodeTableWord 32 0b0000000_00000000_00000000_0_00000011 = some .imgCapacity := by
  decide
theorem test_decode_audCapacity : decodeTableWord 32 0b0000000_00000000_00000000_0_00000100 = some .audCapacity := by
  decide
theorem test_decode_imgValidate : decodeTableWord 32 0b0000000_00000000_00000000_0_00000101 = some .imgValidate := by
  decide
theorem test_decode_audValidate : decodeTableWord 32 0b0000000_00000000_00000000_0_00000110 = some .audValidate := by
  decide
theorem test_decode_imgEmbed : decodeTableWord 32 0b0000000_00000000_00000000_0_00000111 = some .imgEmbed := by decide
theorem test_decode_imgExtract_cbuf :
    decodeTableWord 32 0b0000000_00000000_00000000_0_00001000 = some (.imgExtract .cbuf) := by decide
theorem test_decode_imgExtract_obuf :
    decodeTableWord 32 0b0000000_00000000_00000000_1_00001000 = some (.imgExtract .obuf) := by decide
theorem test_decode_audEmbed : decodeTableWord 32 0b0000000_00000000_00000000_0_00001001 = some .audEmbed := by decide
theorem test_decode_audExtract_cbuf :
    decodeTableWord 32 0b0000000_00000000_00000000_0_00001010 = some (.audExtract .cbuf) := by decide
theorem test_decode_audExtract_obuf :
    decodeTableWord 32 0b0000000_00000000_00000000_1_00001010 = some (.audExtract .obuf) := by decide

/-- V-CW-1 to V-CW-8: each kind of illegal word, by name. -/
theorem test_decode_rejects :
    decode 0x00000000#32 = .error .noSuchCommand ∧ decode 0x0000000B#32 = .error .noSuchCommand
      ∧ decode 0x000000FF#32 = .error .noSuchCommand ∧ decode 0x00000101#32 = .error .srcNotAllowed
      ∧ decode 0x00000107#32 = .error .srcNotAllowed ∧ decode 0x00000200#32 = .error .reservedBits
      ∧ decode 0x80000008#32 = .error .reservedBits ∧ decode 0x00000209#32 = .error .reservedBits := by decide

/-- A command word is four bytes, the low byte first (R60, R98). -/
theorem test_decode_bytes :
    decodeBytes [0x08#8, 0x01#8, 0x00#8, 0x00#8] = .ok (.imgExtract .obuf)
      ∧ decodeBytes [0x08#8, 0x01#8] = .error .notOneWord ∧ decodeTableWord 32 (2 ^ 32 + 1) = none := by decide

/-- The rows of R97 as match and mask: no word matches two. -/
def rows : List (Word × Word) :=
  [(0x00000001#32, 0xFFFFFFFF#32), (0x00000002#32, 0xFFFFFFFF#32), (0x00000003#32, 0xFFFFFFFF#32),
   (0x00000004#32, 0xFFFFFFFF#32), (0x00000005#32, 0xFFFFFFFF#32), (0x00000006#32, 0xFFFFFFFF#32),
   (0x00000007#32, 0xFFFFFFFF#32), (0x00000008#32, 0xFFFFFEFF#32), (0x00000009#32, 0xFFFFFFFF#32),
   (0x0000000A#32, 0xFFFFFEFF#32)]

theorem test_rows_do_not_overlap :
    rows.Pairwise fun r q => (r.1 ^^^ q.1) &&& (r.2 &&& q.2) ≠ 0#32 := by decide

/-- R100: the spellings, and a spelling that is none. -/
theorem test_assemble :
    assemble "IMG_EXTRACT" = some 0x00000008#32 ∧ assemble "IMG_EXTRACT OBUF" = some 0x00000108#32
      ∧ assemble "AUD_EMBED" = some 0x00000009#32 ∧ assemble "img_embed" = none
      ∧ assemble "IMG_EMBED OBUF" = none := by decide

/-! ### The commands -/

/-- V-FE-3. -/
theorem test_frameEncode_hi :
    let t := after (exec .frameEncode (withMessage [0x48#8, 0x69#8] State.reset))
    (t.err, t.bitLen, t.done, t.phase) = (.ok, 32#32, true, .idle)
      ∧ content t .bbuf 5 = [some 0x48#8, some 0x69#8, some 0xFF#8, some 0xFE#8, none] := by decide +kernel

/-- V-FE-7: 63 bytes of message and 2 of terminator do not fit 64 bytes. -/
theorem test_frameEncode_range :
    let t := after (exec .frameEncode { State.reset with msgLen := 63, bitLen := 7 })
    (t.err, t.bitLen, t.mem) = (.range, 7#32, []) := by decide

/-- V-FD-5: a match at bit 7, seven bits discarded. -/
theorem test_frameDecode_unaligned :
    let t := after (exec .frameDecode { load .bbuf [0x01#8, 0xFF#8, 0xFC#8] State.reset with bitLen := 24 })
    (t.err, t.outLen, t.payloadBits, t.decInfo) = (.ok, 0#32, 7#32, 0x0000000F#32) ∧ content t .tbuf 1 = [none] := by
  decide +kernel

/-- V-FD-13: the terminator's last bit cut off, so no match. -/
theorem test_frameDecode_cut :
    let t := after (exec .frameDecode { load .bbuf [0x41#8, 0xFF#8, 0xFE#8] State.reset with bitLen := 23 })
    (t.err, t.outLen, t.payloadBits, t.decInfo) = (.ok, 2#32, 23#32, 0x0000000E#32)
      ∧ content t .tbuf 3 = [some 0x41#8, some 0xFF#8, none] := by decide +kernel

/-- V-CA-4: exact above 32 bits, and no RANGE. -/
theorem test_imgCapacity_greatest :
    let t := after (exec .imgCapacity { State.reset with imgDim := 0xFFFFFFFF#32, reqBits := 5 })
    (t.err, t.reqBits, readReg .availBitsHi t, readReg .availBitsLo t) = (.ok, 5#64, 2#32, 0xFFFA0003#32) := by decide

/-- V-CA-5: the format is not checked. -/
theorem test_audCapacity :
    let t := after (exec .audCapacity { State.reset with audNsamp := 44100, audFmt := 0x00000202#32 })
    (t.err, t.availBits) = (.ok, 44100#64) := by decide

/-- V-CA-9: an exact fill. -/
theorem test_imgValidate_exact :
    let t := after (exec .imgValidate { State.reset with imgDim := 0x00040002#32, msgLen := 1 })
    (t.err, t.reqBits, t.availBits) = (.ok, 24#64, 24#64) := by decide

/-- V-CA-8. -/
theorem test_imgValidate_capacity :
    let t := after (exec .imgValidate { State.reset with imgDim := 0x000A000A#32, msgLen := 36 })
    (t.err, t.reqBits, t.availBits, t.errInfo) = (.capacity, 304#64, 300#64, 0#32) := by decide

/-- V-CA-15. -/
theorem test_audValidate_capacity :
    let t := after (exec .audValidate { State.reset with audNsamp := 23, msgLen := 1 })
    (t.err, t.reqBits, t.availBits) = (.capacity, 24#64, 23#64) := by decide

/-- V-CA-19: no wrap-around. -/
theorem test_audValidate_wide :
    let t := after (exec .audValidate { State.reset with audNsamp := 0xFFFFFFFF#32, msgLen := 0xFFFFFFFF#32 })
    (t.err, readReg .reqBitsHi t, readReg .reqBitsLo t, readReg .availBitsLo t) =
      (.capacity, 8#32, 8#32, 0xFFFFFFFF#32) := by decide

/-- The carrier and message of V-IMG-1. -/
def imageState : State :=
  withMessage [0x41#8]
    { load .cbuf ((List.range 24).map fun k => BitVec.ofNat 8 (0x10 + k)) State.reset with imgDim := 0x00040002#32 }

/-- V-IMG-1. -/
theorem test_imgEmbed_fill :
    let t := after (exec .imgEmbed imageState)
    (t.err, t.reqBits, t.availBits) = (.ok, 24#64, 24#64)
      ∧ content t .obuf 24 =
        ([0x10#8, 0x11#8, 0x12#8, 0x12#8, 0x14#8, 0x14#8, 0x16#8, 0x17#8, 0x19#8, 0x19#8, 0x1B#8, 0x1B#8, 0x1D#8,
          0x1D#8, 0x1F#8, 0x1F#8, 0x21#8, 0x21#8, 0x23#8, 0x23#8, 0x25#8, 0x25#8, 0x27#8, 0x26#8].map some) := by
  decide +kernel

/-- V-IMG-5b: RANGE before CAPACITY. -/
theorem test_imgEmbed_priority :
    let t := after (exec .imgEmbed { State.reset with msgLen := 65 })
    (t.err, t.reqBits, t.mem) = (.range, 0#64, []) := by decide

/-- V-IMG-11: extracting from CBUF reads the unmodified input. -/
theorem test_imgExtract_cbuf :
    let t := after (exec (.imgExtract .cbuf) imageState)
    (t.err, t.outLen, t.payloadBits, t.decInfo) = (.ok, 3#32, 24#32, 0#32)
      ∧ content t .tbuf 4 = [some 0x55#8, some 0x55#8, some 0x55#8, none] := by decide +kernel

/-- V-IMG-6. -/
theorem test_imgExtract_obuf :
    let t := after (exec (.imgExtract .obuf) (after (exec .imgEmbed imageState)))
    (t.err, t.outLen, t.payloadBits, t.decInfo) = (.ok, 1#32, 8#32, 1#32)
      ∧ content t .tbuf 2 = [some 0x41#8, none] := by decide +kernel

/-- The samples of V-AUD-2. -/
def audioState : State :=
  { load .cbuf (sampleBytes [0x0000#16, 0x0001#16, 0xFFFF#16, 0xFFFE#16, 0x7FFF#16, 0x8000#16, 0x0064#16, 0xFF9C#16,
      0x0002#16, 0x0003#16, 0x0004#16, 0x0005#16, 0x0006#16, 0x0007#16, 0x0008#16, 0x0009#16, 0x000A#16, 0x000B#16])
      State.reset with
    audNsamp := 18, audFmt := 0x00000201#32, audRate := 8000 }

/-- V-AUD-2. -/
theorem test_audEmbed :
    let t := after (exec .audEmbed audioState)
    (t.err, t.reqBits, t.availBits, t.outAudFmt, t.outAudRate, t.outAudNsamp) =
        (.ok, 16#64, 18#64, 0x00000201#32, 8000#32, 18#32)
      ∧ content t .obuf 36 =
        ([0x01#8, 0x00#8, 0x01#8, 0x00#8, 0xFF#8, 0xFF#8, 0xFF#8, 0xFF#8, 0xFF#8, 0x7F#8, 0x01#8, 0x80#8, 0x65#8,
          0x00#8, 0x9D#8, 0xFF#8, 0x03#8, 0x00#8, 0x03#8, 0x00#8, 0x05#8, 0x00#8, 0x05#8, 0x00#8, 0x07#8, 0x00#8,
          0x07#8, 0x00#8, 0x09#8, 0x00#8, 0x08#8, 0x00#8, 0x0A#8, 0x00#8, 0x0B#8, 0x00#8].map some) := by
  decide +kernel

/-- V-AUD-5: the format before RANGE and CAPACITY. -/
theorem test_audEmbed_format :
    let t := after (exec .audEmbed { State.reset with audFmt := 0x00000202#32, audNsamp := 300, msgLen := 100 })
    (t.err, t.errInfo, t.reqBits, t.outAudFmt) = (.unsupportedFormat, 0x00000202#32, 0#64, 0#32) := by decide

/-- V-AUD-10: fifteen ones are no terminator. -/
theorem test_audExtract_cbuf :
    let s := load .cbuf (sampleBytes (List.replicate 15 0x0001#16)) State.reset
    let t := after (exec (.audExtract .cbuf) { s with audNsamp := 15, audFmt := 0x00000201#32 })
    (t.err, t.outLen, t.payloadBits, t.decInfo) = (.ok, 1#32, 15#32, 0x0000000E#32)
      ∧ content t .tbuf 2 = [some 0xFF#8, none] := by decide +kernel

/-- V-AUD-4b. -/
theorem test_audExtract_format :
    let t := after (exec (.audExtract .obuf) { State.reset with audFmt := 0x00000101#32 })
    (t.err, t.errInfo, t.outLen) = (.unsupportedFormat, 0x00000101#32, 0#32) := by decide

/-- V-CW-8: ILLEGAL before the format; ERR_INFO 0. -/
theorem test_illegal_word :
    let t := after (step { busy 0x00000209#32 { State.reset with audFmt := 0x00000202#32 } with turns := [.engine] })
    (t.err, t.errInfo, readReg .status t, readReg .cmd t) =
      (.illegalCommand, 0#32, 0x00000102#32, 0x00000209#32) := by decide

/-- V-FR-6, V-FR-7, V-FR-4. -/
theorem test_findTerm :
    findTerm (bitsOf [0x3F#8, 0xFF#8, 0x80#8]) = some 2 ∧ findTerm (bitsOf [0x7F#8, 0xFF#8]) = none
      ∧ findTerm (List.replicate 15 true) = none := by decide

/-- V-AUD-1. -/
theorem test_setLsb_signed :
    setLsb 0x8000#16 true = 0x8001#16 ∧ setLsb 0x7FFF#16 false = 0x7FFE#16 ∧ setLsb 0xFFFF#16 false = 0xFFFE#16
      ∧ setLsb 0xFFFE#16 true = 0xFFFF#16 := by decide

/-! ### The host port -/

/-- V-HI-1, V-HI-2. -/
theorem test_id : readData 0x0#32 .b32 State.reset = some 0x4C534231#32
    ∧ readData 0x0#32 .b32 (written 0x0#32 .b32 0#32 State.reset) = some 0x4C534231#32 := by decide

/-- A state whose registers from MSG_LEN on all differ, to tell them apart by their offsets. -/
def distinctRegisters : State :=
  { State.reset with
    pending := 3, msgLen := 4, imgDim := 5, audNsamp := 6, audFmt := 7, audRate := 8, bitLen := 9
    reqBits := 0x0000000B0000000A#64, availBits := 0x0000000D0000000C#64
    outLen := 14, decInfo := 15, payloadBits := 16, outAudFmt := 17, outAudRate := 18, outAudNsamp := 19, errInfo := 20 }

/-- R23: the offset of every register, in the order of its table. -/
theorem test_register_map :
    [0x0C#32, 0x10#32, 0x14#32, 0x18#32, 0x1C#32, 0x20#32, 0x24#32, 0x28#32, 0x2C#32, 0x30#32, 0x34#32, 0x38#32,
      0x3C#32, 0x40#32, 0x44#32, 0x48#32, 0x4C#32, 0x50#32].map (fun a => readData a .b32 distinctRegisters) =
    [3#32, 4#32, 5#32, 6#32, 7#32, 8#32, 9#32, 10#32, 11#32, 12#32, 13#32, 14#32, 15#32, 16#32, 17#32, 18#32, 19#32,
      20#32].map some := by decide

/-- V-HI-3. -/
theorem test_ctrl : readData 0x4#32 .b32 (written 0x4#32 .b32 0xFFFFFFFF#32 State.reset) = some 1#32 := by decide

/-- V-HI-4, V-HI-5. -/
theorem test_status :
    let s : State := { State.reset with done := true, werr := true, err := .capacity }
    readData 0x8#32 .b32 s = some 0x00000406#32
      ∧ readData 0x8#32 .b32 (written 0x8#32 .b32 0xFFFFFFFF#32 s) = some 0x00000400#32
      ∧ readData 0x8#32 .b32 (written 0x8#32 .b32 0x00000002#32 s) = some 0x00000404#32 := by decide

/-- V-HI-6 to V-HI-9: bus errors. -/
theorem test_bus_errors :
    [(Access.read 0x0#32 .b8), .write 0x01000001#32 .b16 0x1234#32, .read 0x00000100#32 .b32,
      .read 0x01000200#32 .b8].all
        (fun a => decide (flt (step (hostTurn a State.reset)) = some (.busError a))) = true := by decide

/-- V-HI-10: the last word of CBUF. -/
theorem test_write_last_word :
    let t := written 0x010001FC#32 .b32 0x44332211#32 State.reset
    t.mem = [(0x010001FC, 0x11#8), (0x010001FD, 0x22#8), (0x010001FE, 0x33#8), (0x010001FF, 0x44#8)] := by decide

/-- V-HI-12. -/
theorem test_little_endian :
    let t := written 0x01000000#32 .b32 0x44332211#32 State.reset
    readData 0x01000002#32 .b16 t = some 0x4433#32 ∧ readData 0x01000001#32 .b8 t = some 0x22#32 := by decide

/-- V-HI-11, V-HI-13. -/
theorem test_reserved_and_read_only :
    readData 0x54#32 .b32 State.reset = some 0#32
      ∧ (written 0x28#32 .b32 5#32 State.reset).reqBits = 0 ∧ (written 0x28#32 .b32 5#32 State.reset).werr = false := by
  decide

/-- V-BZ-1, V-BZ-2, V-BZ-5, V-BZ-6. -/
theorem test_busy_writes :
    (written 0x10#32 .b32 7#32 (busy 3#32 State.reset)).msgLen = 0
      ∧ (written 0x10#32 .b32 7#32 (busy 3#32 State.reset)).werr = true
      ∧ (written 0xC#32 .b32 2#32 (busy 1#32 State.reset)).pending = 1#32
      ∧ (written 0x4#32 .b32 1#32 (busy 7#32 State.reset)).ie = true
      ∧ readData 0x8#32 .b32 (busy 7#32 State.reset) = some 1#32 := by decide

/-- V-BZ-7: a bus error stays one while BUSY, with WERR unchanged. -/
theorem test_busy_bus_error :
    let s := hostTurn (.write 0x03000001#32 .b16 0#32) (busy 1#32 State.reset)
    flt (step s) = some (.busError (.write 0x03000001#32 .b16 0#32)) ∧ (stepOn s).werr = false := by decide

/-- V-BZ-4: CBUF reads as stored while BUSY. V-BZ-3: a read of OBUF is a draw. -/
theorem test_busy_reads :
    readData 0x01000000#32 .b8 (busy 7#32 imageState) = some 0x10#32
      ∧ (after (step (hostTurn (.read 0x02000000#32 .b8) (busy 7#32 imageState)))).draws = 1 := by decide +kernel

/-- V-RS-7: a reset abandons the running command. -/
theorem test_reset_while_busy :
    let t := after (step { busy 7#32 imageState with turns := [.reset] })
    (readReg .status t, irq t, t.mem, t.epoch) = (0#32, false, [], 1) := by decide +kernel

/-- The end of program P4: both orders of the write and the completion (R78). -/
theorem test_interleaving :
    let s : State := busy 3#32 { State.reset with msgLen := 35 }
    let w : Turn := .host (.write 0x10#32 .b32 1#32)
    let a := runOn 2 { s with turns := [.engine, w] }
    let b := runOn 2 { s with turns := [w, .engine] }
    (readReg .status a, a.msgLen, readReg .status b, b.msgLen) = (0x00000002#32, 1#32, 0x00000006#32, 35#32) := by
  decide

/-- The transactions of the first lines of program P1, the `i` spelt as an escape (R104). -/
theorem test_script :
    scriptTurns [.loadText [.char 'H', .escape 0x69#8], .run .frameEncode 0] =
      [.host (.write 0x03000000#32 .b8 0x48#32), .host (.write 0x03000001#32 .b8 0x69#32),
       .host (.write 0x00000010#32 .b32 2#32), .host (.write 0x0000000C#32 .b32 1#32), .engine,
       .host (.read 0x00000008#32 .b32)] := by decide

/-- R104: SETIMG, SETAUD, ACK, CLRWERR, LOADSAMPLES. -/
theorem test_script_registers :
    scriptTurns [.setImg 2 4, .setAud 40 1 2 0 44100, .ack, .clrWerr, .loadSamples 0x01000000#32 [-20000]] =
      [.host (.write 0x14#32 .b32 0x00040002#32), .host (.write 0x18#32 .b32 40#32),
       .host (.write 0x1C#32 .b32 0x00000201#32), .host (.write 0x20#32 .b32 44100#32),
       .host (.write 0x8#32 .b32 2#32), .host (.write 0x8#32 .b32 4#32),
       .host (.write 0x01000000#32 .b16 0xB1E0#32)] := by decide

/-- A started word runs as the first command after reset. -/
theorem test_first_words_run :
    ([1, 2, 3, 4, 5, 6, 7, 8, 0x108, 9, 0xA, 0x10A].all fun w =>
      (nx (step (State.reset.withFetchWord 32 w))).isSome) = true := by decide

/-! ### Witnesses: for each statement with hypotheses, a state and operands that meet them, clause by clause -/

/-- The parts of a command that completes with OK on `s`. -/
abbrev CompletesOk (i : Instr) (s : State) : Prop := exec i s = .next (after (exec i s)) ∧ (after (exec i s)).err = .ok

theorem witness_IllegalWordCompletes :
    (∃ e, decode State.reset.pending = .error e) ∧ (∃ e, decode (busy 0x0000000B#32 State.reset).pending = .error e)
      ∧ (∃ e, decode (busy 0x00000101#32 State.reset).pending = .error e)
      ∧ ∃ e, decode (busy 0x00000200#32 State.reset).pending = .error e :=
  ⟨⟨.noSuchCommand, rfl⟩, ⟨.noSuchCommand, rfl⟩, ⟨.srcNotAllowed, rfl⟩, ⟨.reservedBits, rfl⟩⟩

theorem witness_StepRunsTheDecodedCommand :
    let s := busy 0x0000010A#32 State.reset
    s.cfg.wf = true ∧ s.phase = .busy ∧ decode s.pending = .ok (.audExtract .obuf) ∧ s.turns = []
      ∧ ({ s with turns := [.engine] } : State).turns = .engine :: [] := by decide

theorem witness_StartedWordRunsNext :
    State.reset.cfg.wf = true ∧ 0x10A < 2 ^ 32 ∧ decodeTableWord 32 0x10A = some (.audExtract .obuf)
      ∧ decodeTableWord 32 1 = some .frameEncode := by decide

theorem witness_CmdWriteStartsCommand :
    let s := hostTurn (.write 0x0000000C#32 .b32 0xFFFFFFFF#32) State.reset
    s.cfg.wf = true ∧ s.phase = .idle ∧ s.turns = .host (.write 0x0000000C#32 .b32 0xFFFFFFFF#32) :: [] := by decide

theorem witness_EngineCompletesExactlyWhenBusy :
    State.reset.phase = .idle ∧ (busy 0#32 State.reset).phase = .busy
      ∧ (after (engineTurn (busy 0#32 State.reset))).err ≠ .unsupportedFormat
      ∧ (after (engineTurn (busy 9#32 State.reset))).err = .unsupportedFormat := by decide

/-- L of the boundary of each clause: 63 and 65 are RANGE, 62 fills BBUF. -/
theorem witness_FrameEncodeRule :
    let s (l : Word) : State := { State.reset with msgLen := l }
    (s 65).cfg.wf = true ∧ (s 65).cfg.nMbuf < opL (s 65) ∧ (s 63).cfg.nBbuf < opL (s 63) + 2
      ∧ (opL (s 62) ≤ (s 62).cfg.nMbuf ∧ opL (s 62) + 2 ≤ (s 62).cfg.nBbuf)
      ∧ (opL (s 0) ≤ (s 0).cfg.nMbuf ∧ opL (s 0) + 2 ≤ (s 0).cfg.nBbuf) := by decide

theorem witness_FrameDecodeRule :
    let s (n : Word) : State := { State.reset with bitLen := n }
    (s 513).cfg.wf = true ∧ 8 * (s 513).cfg.nBbuf < opBits (s 513) ∧ opBits (s 512) ≤ 8 * (s 512).cfg.nBbuf
      ∧ opBits (s 0) ≤ 8 * (s 0).cfg.nBbuf := by decide

/-- The three clauses, at V-IMG-5a, 5b, V-IMG-3 and V-IMG-1. -/
theorem witness_ImgEmbedRule :
    let s (d l : Word) : State := { State.reset with imgDim := d, msgLen := l }
    let a := s 0x000D000E 0
    let b := s 0 65
    let c := s 0x00040002 2
    let d := s 0x00040002 1
    a.cfg.wf = true ∧ a.cfg.nCbuf < 3 * opW a * opH a ∧ b.cfg.nMbuf < opL b
      ∧ (opL c ≤ c.cfg.nMbuf ∧ 3 * opW c * opH c ≤ c.cfg.nCbuf ∧ 3 * opW c * opH c < 8 * opL c + 16)
      ∧ (opL d ≤ d.cfg.nMbuf ∧ 3 * opW d * opH d ≤ d.cfg.nCbuf ∧ 8 * opL d + 16 ≤ 3 * opW d * opH d) := by decide

theorem witness_ImgExtractRule :
    let s (d : Word) : State := { State.reset with imgDim := d }
    (s 0).cfg.wf = true ∧ (s 0x000D000E).cfg.nCbuf < 3 * opW (s 0x000D000E) * opH (s 0x000D000E)
      ∧ 3 * opW (s 0x0011000A) * opH (s 0x0011000A) ≤ (s 0x0011000A).cfg.nCbuf
      ∧ 3 * opW (s 0) * opH (s 0) ≤ (s 0).cfg.nCbuf := by decide

/-- The four clauses, at V-AUD-4a, 6a, V-AUD-7 and the least N that fits one byte. -/
theorem witness_AudEmbedRule :
    let s (f n l : Word) : State := { State.reset with audFmt := f, audNsamp := n, msgLen := l }
    let a := s 0x202 300 100
    let b := s 0x201 257 0
    let c := s 0x201 23 1
    let d := s 0x201 24 1
    a.cfg.wf = true ∧ ¬((opCh a).toNat = 1 ∧ (opSw a).toNat = 2)
      ∧ ((opCh b).toNat = 1 ∧ (opSw b).toNat = 2 ∧ b.cfg.nCbuf < 2 * opN b)
      ∧ ((opCh c).toNat = 1 ∧ (opSw c).toNat = 2 ∧ opL c ≤ c.cfg.nMbuf ∧ 2 * opN c ≤ c.cfg.nCbuf
        ∧ opN c < 8 * opL c + 16)
      ∧ ((opCh d).toNat = 1 ∧ (opSw d).toNat = 2 ∧ opL d ≤ d.cfg.nMbuf ∧ 2 * opN d ≤ d.cfg.nCbuf
        ∧ 8 * opL d + 16 ≤ opN d) := by decide

theorem witness_AudExtractRule :
    let s (f n : Word) : State := { State.reset with audFmt := f, audNsamp := n }
    let a := s 0x101 0
    let b := s 0x201 257
    let c := s 0x201 256
    a.cfg.wf = true ∧ ¬((opCh a).toNat = 1 ∧ (opSw a).toNat = 2)
      ∧ ((opCh b).toNat = 1 ∧ (opSw b).toNat = 2 ∧ b.cfg.nCbuf < 2 * opN b)
      ∧ ((opCh c).toNat = 1 ∧ (opSw c).toNat = 2 ∧ 2 * opN c ≤ c.cfg.nCbuf) := by decide

/-- One completion step for each of the five outcomes. -/
theorem witness_OutcomeIsTheFirstThatApplies :
    [(busy 0 State.reset, OutcomeCode.illegalCommand), (busy 9 State.reset, .unsupportedFormat),
      (busy 7 { State.reset with msgLen := 65 }, .range), (busy 7 State.reset, .capacity),
      (busy 3 State.reset, .ok)].all
        (fun x => (nx (completionStep x.1)).isSome && decide ((after (completionStep x.1)).err = x.2)) = true := by
  decide

theorem witness_ErrorsArePrecise :
    let s := busy 7 State.reset
    completionStep s = .next (after (completionStep s)) ∧ (after (completionStep s)).err = .capacity
      ∧ (after (completionStep (busy 0 State.reset))).err = .illegalCommand :=
  ⟨next_after (by decide), by decide, by decide⟩

/-- FRAME_ENCODE changes BBUF byte 0 from 0 to 0xFF. -/
theorem witness_EngineWritesOnlyOutputBuffers :
    let s := load .bbuf [0#8] State.reset
    s.cfg.wf = true ∧ exec .frameEncode s = .next (after (exec .frameEncode s))
      ∧ (after (exec .frameEncode s)).byte 0x04000000 ≠ s.byte 0x04000000 :=
  ⟨by decide, next_after (by decide +kernel), by decide +kernel⟩

/-- Every command answers a next state on the reset state. -/
theorem witness_EachCommandWritesOnlyItsOwn :
    [Instr.frameEncode, .frameDecode, .imgCapacity, .audCapacity, .imgValidate, .audValidate, .imgEmbed,
      .imgExtract .cbuf, .imgExtract .obuf, .audEmbed, .audExtract .cbuf, .audExtract .obuf].all
        (fun i => (nx (exec i State.reset)).isSome) = true := by decide

/-- A decode that completes with OK, and a capacity command. -/
theorem witness_CommandsReadNoFlag :
    CompletesOk .frameDecode State.reset ∧ CompletesOk .imgCapacity State.reset :=
  ⟨⟨next_after (by decide), by decide⟩, next_after (by decide), by decide⟩

/-- V-FR-2: the bits of a frame at the ends of each range. -/
theorem witness_FrameIsMessageThenTerminator :
    (frame [0x41#8])[0]? = some false ∧ (frame [0x41#8])[7]? = some true ∧ (frame [0x41#8])[8]? = some true
      ∧ (frame [0x41#8])[22]? = some true ∧ (frame [0x41#8])[23]? = some false ∧ (frame []).length = 16 := by decide

theorem witness_DeframePacksThePayload :
    let s := bitsOf [0x41#8, 0x50#8]
    0 < (deframe s).payload / 8 ∧ (7 : Nat) < 8 ∧ (deframe s).out = [0x41#8, 0x50#8] := by decide

theorem witness_DeframeBounds :
    (deframe (frame [0x41#8])).found = true ∧ (deframe (bitsOf [0x41#8])).found = false := by decide

theorem witness_DeframeOfFrame :
    findTerm (bitsOf [0x48#8, 0x69#8]) = none ∧ findTerm (bitsOf [0xFF#8, 0xFE#8, 0x41#8]) = some 0 := by decide

/-- V-IMG-1, extracted at once. -/
theorem witness_ImageRoundTrip :
    imageState.cfg.wf = true ∧ CompletesOk .imgEmbed imageState ∧ findTerm (bitsOf (message imageState)) = none
      ∧ ∃ u : State, u.cfg = (after (exec .imgEmbed imageState)).cfg
        ∧ u.imgDim = (after (exec .imgEmbed imageState)).imgDim
        ∧ ∀ k, k < 3 * opW imageState * opH imageState →
          u.byte (bufBase .obuf + k) = (after (exec .imgEmbed imageState)).byte (bufBase .obuf + k) :=
  ⟨by decide, ⟨next_after (by decide +kernel), by decide +kernel⟩, by decide +kernel, _, rfl, rfl, fun _ _ => rfl⟩

/-- V-AUD-2, extracted at once. -/
theorem witness_AudioRoundTrip :
    audioState.cfg.wf = true ∧ CompletesOk .audEmbed audioState
      ∧ ∃ u : State, u.cfg = (after (exec .audEmbed audioState)).cfg
        ∧ u.audNsamp = (after (exec .audEmbed audioState)).audNsamp
        ∧ u.audFmt = (after (exec .audEmbed audioState)).audFmt
        ∧ ∀ k, k < 2 * opN audioState →
          u.byte (bufBase .obuf + k) = (after (exec .audEmbed audioState)).byte (bufBase .obuf + k) :=
  ⟨by decide, ⟨next_after (by decide +kernel), by decide +kernel⟩, _, rfl, rfl, rfl, fun _ _ => rfl⟩

/-- The last channel of the last pixel of a 2 × 4 image. -/
theorem witness_ImageUnitsInRasterOrder : 1 < 2 ∧ 3 < 4 ∧ 2 < 3 ∧ 3 * (3 * 2 + 1) + 2 + 1 = capImg 2 4 := by decide

/-- A high byte, and the low byte under it. -/
def oneSample (high low : Byte) : State :=
  { load .cbuf [low, high] State.reset with audNsamp := 1, audFmt := 0x00000201#32 }

/-- Two samples with the same low byte and different high bytes. -/
theorem witness_AudExtractIgnoresHighBytes :
    let s := oneSample 0x12#8 0x31#8
    let u := oneSample 0xFF#8 0x31#8
    CompletesOk (.audExtract .cbuf) s ∧ CompletesOk (.audExtract .cbuf) u ∧ s.cfg.wf = true ∧ u.cfg = s.cfg
      ∧ u.audNsamp = s.audNsamp ∧ u.audFmt = s.audFmt
      ∧ ∀ i, i < opN s → u.byte (opBase .cbuf + 2 * i) = s.byte (opBase .cbuf + 2 * i) :=
  ⟨⟨next_after (by decide +kernel), by decide +kernel⟩, ⟨next_after (by decide +kernel), by decide +kernel⟩,
    by decide, rfl, rfl, rfl, by decide +kernel⟩

/-- An aligned access wholly inside `bytes` bytes at `base`, as the statement writes it. -/
abbrev inside (address : Word) (size : Size) (base bytes : Nat) : Prop :=
  base ≤ address.toNat ∧ address.toNat + sizeBytes size ≤ base + bytes ∧ address.toNat % sizeBytes size = 0

/-- The accesses of the map, as the statement writes them. -/
abbrev mappedAccess (c : Config) (address : Word) (size : Size) : Prop :=
  (address.toNat < 0x100 ∧ size = .b32 ∧ address.toNat % 4 = 0)
  ∨ inside address size 0x01000000 c.nCbuf ∨ inside address size 0x02000000 c.nCbuf
  ∨ inside address size 0x03000000 c.nMbuf ∨ inside address size 0x04000000 c.nBbuf
  ∨ inside address size 0x05000000 c.nTbuf

/-- The last register word and the last bytes of each buffer are mapped, and are what the map says. -/
theorem witness_BusErrors_mapped :
    Config.k1.wf = true ∧ mappedAccess Config.k1 0x000000FC#32 .b32
      ∧ (mappedAccess Config.k1 0x010001FC#32 .b32 ∧ target Config.k1 0x010001FC#32 .b32 = some (.buffer .cbuf 508))
      ∧ (mappedAccess Config.k1 0x020001FE#32 .b16 ∧ target Config.k1 0x020001FE#32 .b16 = some (.buffer .obuf 510))
      ∧ (mappedAccess Config.k1 0x0300003F#32 .b8 ∧ target Config.k1 0x0300003F#32 .b8 = some (.buffer .mbuf 63))
      ∧ (mappedAccess Config.k1 0x0400003C#32 .b32 ∧ target Config.k1 0x0400003C#32 .b32 = some (.buffer .bbuf 60))
      ∧ (mappedAccess Config.k1 0x0500003F#32 .b8 ∧ target Config.k1 0x0500003F#32 .b8 = some (.buffer .tbuf 63)) := by
  refine ⟨?_, ?_, ⟨?_, ?_⟩, ⟨?_, ?_⟩, ⟨?_, ?_⟩, ⟨?_, ?_⟩, ?_, ?_⟩ <;> decide

/-- The address after the register window, the byte after each buffer, and a misaligned access are not. -/
theorem witness_BusErrors_unmapped :
    Config.k1.wf = true ∧ ¬mappedAccess Config.k1 0x00000100#32 .b32 ∧ ¬mappedAccess Config.k1 0x01000001#32 .b16
      ∧ ¬mappedAccess Config.k1 0x01000200#32 .b8 ∧ ¬mappedAccess Config.k1 0x02000200#32 .b8
      ∧ ¬mappedAccess Config.k1 0x03000040#32 .b8 ∧ ¬mappedAccess Config.k1 0x04000040#32 .b8
      ∧ ¬mappedAccess Config.k1 0x05000040#32 .b8 := by
  refine ⟨?_, ?_, ?_, ?_, ?_, ?_, ?_, ?_⟩ <;> decide

theorem witness_BusErrorChangesNothing :
    let s := hostTurn (.read 0x00000100#32 .b32) State.reset
    s.turns = .host (.read 0x00000100#32 .b32) :: [] ∧ flt (step s) = some (.busError (.read 0x00000100#32 .b32)) := by
  decide

/-- An output register while IDLE, and STATUS while BUSY; the third clause's hypotheses are those of the first state. -/
theorem witness_RegisterReads :
    let s := hostTurn (.read (BitVec.ofNat 32 (regOffset .errInfo)) .b32) State.reset
    let u := hostTurn (.read (BitVec.ofNat 32 (regOffset .status)) .b32) (busy 3#32 State.reset)
    s.cfg.wf = true ∧ s.phase = .idle ∧ s.turns = .host (.read 0x50#32 .b32) :: []
      ∧ u.phase = .busy ∧ isOutput (.reg .status) = false ∧ u.turns = .host (.read 0x8#32 .b32) :: [] := by decide

theorem witness_ReservedOffsets :
    State.reset.cfg.wf = true ∧ State.reset.phase = .idle ∧ (0x54 ≤ 4 * 21 ∧ 4 * 21 ≤ 0xFC)
      ∧ (0x54 ≤ 4 * 63 ∧ 4 * 63 ≤ 0xFC) := by decide

theorem witness_ControlAndStatusWrites : State.reset.cfg.wf = true := by decide

theorem witness_IdleRegisterWrites :
    State.reset.cfg.wf = true ∧ State.reset.phase = .idle ∧ ((0 : Nat) = 0 ∨ (10 ≤ 0 ∧ 0 ≤ 20))
      ∧ (10 ≤ 10 ∧ 10 ≤ 20) ∧ (10 ≤ 20 ∧ 20 ≤ 20) := by decide

/-- A dropped write of a buffer's last byte and of ID; CTRL; STATUS; a bus error. -/
theorem witness_BusyWritesAreDropped :
    let s := busy 3#32 State.reset
    s.cfg.wf = true ∧ s.phase = .busy ∧ target s.cfg 0x0500003F#32 .b8 ≠ none ∧ target s.cfg 0x0#32 .b32 ≠ none
      ∧ target s.cfg 0x4#32 .b32 ≠ none ∧ target s.cfg 0x8#32 .b32 ≠ none ∧ target s.cfg 0x8#32 .b8 = none
      ∧ (hostTurn (.write 0x4#32 .b32 1#32) s).turns = .host (.write 0x4#32 .b32 1#32) :: [] := by decide

/-- BIT_LEN, the first output register; an OBUF byte; bytes of CBUF and MBUF. -/
theorem witness_BusyReads :
    let s := busy 3#32 State.reset
    s.cfg.wf = true ∧ s.phase = .busy
      ∧ (target s.cfg 0x24#32 .b32 = some (.reg .bitLen) ∧ isOutput (.reg .bitLen) = true)
      ∧ (target s.cfg 0x02000000#32 .b8 = some (.buffer .obuf 0) ∧ isOutput (.buffer .obuf 0) = true)
      ∧ target s.cfg 0x010001FF#32 .b8 = some (.buffer .cbuf 511)
      ∧ target s.cfg 0x03000000#32 .b16 = some (.buffer .mbuf 0)
      ∧ (hostTurn (.read 0x24#32 .b32) s).turns = .host (.read 0x24#32 .b32) :: [] := by decide

theorem witness_BufferAccessesAreLittleEndian :
    State.reset.cfg.wf = true ∧ State.reset.phase = .idle
      ∧ target State.reset.cfg 0x010001FC#32 .b32 = some (.buffer .cbuf 508)
      ∧ target State.reset.cfg 0x0400003E#32 .b16 = some (.buffer .bbuf 62)
      ∧ target State.reset.cfg 0x0500003F#32 .b8 = some (.buffer .tbuf 63) := by decide

theorem witness_BuffersAreDisjoint :
    Config.k1.wf = true ∧ inBuffer Config.k1 .cbuf 0x010001FF = true ∧ inBuffer Config.k1 .obuf 0x02000000 = true := by
  decide

theorem witness_IrqFollowsDoneAndEnable :
    completionStep State.reset = .next (after (completionStep State.reset)) ∧ (0x00000002#32).getLsbD 1 = true :=
  ⟨next_after (by decide), by decide⟩

theorem witness_ResetInEitherPhase :
    let s : State := { busy 7#32 State.reset with turns := [.reset] }
    s.cfg.wf = true ∧ s.phase = .busy ∧ s.turns = .reset :: [] := by decide

theorem witness_CommandsStraightAfterReset : Config.k1.wf = true ∧ Config.wf ⟨1, 1, 2, 2⟩ = true := by decide

theorem witness_BusyFreezesInputs :
    let s := hostTurn (.write 0x4#32 .b32 1#32) (busy 7#32 State.reset)
    s.phase = .busy ∧ s.turns = .host (.write 0x4#32 .b32 1#32) :: [] ∧ step s = .next (after (step s)) :=
  ⟨by decide, by decide, next_after (by decide)⟩

/-- WERR cleared by the host, cleared by reset, and set by a dropped write. -/
theorem witness_WerrIsSticky :
    let s : State := { State.reset with werr := true }
    let clear := hostTurn (.write 0x8#32 .b32 4#32) s
    let reset : State := { s with turns := [.reset] }
    let drop := hostTurn (.write 0x10#32 .b32 1#32) (busy 3#32 State.reset)
    (step clear = .next (after (step clear)) ∧ clear.werr = true ∧ (after (step clear)).werr = false)
      ∧ (step reset = .next (after (step reset)) ∧ reset.werr = true ∧ (after (step reset)).werr = false)
      ∧ (step drop = .next (after (step drop)) ∧ drop.werr = false ∧ (after (step drop)).werr = true) :=
  ⟨⟨next_after (by decide), by decide, by decide⟩, ⟨next_after (by decide), by decide, by decide⟩,
    next_after (by decide), by decide, by decide⟩

/-- DONE set by a completion; cleared by a command start, by the host and by reset. -/
theorem witness_DoneFollowsCompletions :
    let s : State := { State.reset with done := true }
    let complete := busy 3#32 State.reset
    let start := hostTurn (.write 0xC#32 .b32 3#32) s
    let clear := hostTurn (.write 0x8#32 .b32 2#32) s
    let reset : State := { s with turns := [.reset] }
    (step complete = .next (after (step complete)) ∧ complete.done = false ∧ (after (step complete)).done = true)
      ∧ (step start = .next (after (step start)) ∧ start.done = true ∧ (after (step start)).done = false)
      ∧ (step clear = .next (after (step clear)) ∧ clear.done = true ∧ (after (step clear)).done = false)
      ∧ (step reset = .next (after (step reset)) ∧ reset.done = true ∧ (after (step reset)).done = false) :=
  ⟨⟨next_after (by decide), by decide, by decide⟩, ⟨next_after (by decide), by decide, by decide⟩,
    ⟨next_after (by decide), by decide, by decide⟩, next_after (by decide), by decide, by decide⟩

theorem witness_BusyEndsWhenTurnsRunOut :
    let s := busy 0xFFFFFFFF#32 State.reset
    s.cfg.wf = true ∧ s.phase = .busy ∧ s.turns = [] := by decide

theorem witness_IllegalConfigurationIsRefused :
    let s := State.resetOf ⟨0, 64, 64, 64⟩
    ¬((1 ≤ s.cfg.nCbuf ∧ s.cfg.nCbuf ≤ 2 ^ 24) ∧ (1 ≤ s.cfg.nMbuf ∧ s.cfg.nMbuf ≤ 2 ^ 24)
      ∧ (2 ≤ s.cfg.nBbuf ∧ s.cfg.nBbuf ≤ 2 ^ 24)
      ∧ (max s.cfg.nBbuf (s.cfg.nCbuf / 8) ≤ s.cfg.nTbuf ∧ s.cfg.nTbuf ≤ 2 ^ 24)) := by decide

/-- A running FRAME_DECODE with two bytes in BBUF and BIT_LEN 16 meets the invariant, and its step has a next state. -/
theorem witness_StepKeepsInvariant :
    let s : State := busy 2#32 { load .bbuf [0x41#8, 0x42#8] State.reset with bitLen := 16 }
    s.Inv ∧ step s = .next (after (step s)) :=
  ⟨{ memWf := by decide
     memMapped := by decide
     doneIdle := by decide
     busyErr := by decide
     decReserved := by decide
     errReserved := by decide
     outLenPayload := by decide
     discardedPayload := by decide
     outLenFits := by decide
     reqBound := by decide
     availBound := by decide }, next_after (by decide +kernel)⟩

end Sys2Proof.Tests
end

section
/-! The scope's statements (00_scope.md): what a configuration that describes no part does. -/

namespace Sys2Proof.Proofs

open Sys2Proof.Machine Sys2Proof.Laws

/-- `step` on a configuration that is not well-formed, whatever turn is next (U6). -/
theorem step_of_not_wf {s : State} (hw : ¬s.cfg.wf = true) : step s = .refused .illegalConfiguration :=
  if_neg hw

/-- Settles O52: the constraints of R7 are `Config.wf` clause by clause, and `step` refuses where it fails. -/
theorem illegalConfigurationIsRefused : Obligations.IllegalConfigurationIsRefused := by
  intro s hbroken
  have hw : ¬s.cfg.wf = true := fun hwf => by
    obtain ⟨hcbuf, hmbuf, hbbuf, hle, hcbufLe, htbuf⟩ := cfg_wf_iff.mp hwf
    exact hbroken ⟨hcbuf, hmbuf, hbbuf, max_le hle hcbufLe, htbuf⟩
  exact step_of_not_wf hw

end Sys2Proof.Proofs
end

section
/-! The machine's invariant (`State.Inv`): each update of the state keeps it, so every command, every turn and every
step does. -/

namespace Sys2Proof.Proofs

open Sys2Proof.Machine Sys2Proof.Laws

/-! ### Bounds on operands and on what a command stores -/

/-- REQ_BITS of any message length is below 2^36 (R38). -/
theorem required_opL_lt (s : State) : required (opL s) < 2 ^ 36 := by
  have hL : opL s < 2 ^ 32 := s.msgLen.isLt
  unfold required
  omega

theorem opN_lt (s : State) : opN s < 2 ^ 32 := s.audNsamp.isLt

/-- The capacity of any image carrier is below 2^34 (R39). -/
theorem imgUnits_lt (s : State) : imgUnits s < 2 ^ 34 := by
  have hW : opW s ≤ 65535 := Nat.le_of_lt_succ (s.imgDim.extractLsb' 0 16).isLt
  have hH : opH s ≤ 65535 := Nat.le_of_lt_succ (s.imgDim.extractLsb' 16 16).isLt
  have hcap : imgUnits s ≤ 3 * 65535 * 65535 := Nat.mul_le_mul (Nat.mul_le_mul_left 3 hW) hH
  omega

/-- The frame of the message, packed, is two bytes longer than the message (R116). -/
theorem packedFrame_length (s : State) : (packBytes (frame (message s))).length = opL s + 2 := by
  rw [packBytes_length, frame_length, message_length]
  omega

/-- What is decoded from BBUF or from a carrier fits TBUF (R7). -/
theorem deframe_out_fits {c : Config} (hw : c.wf = true) {bits : List Bool}
    (h : bits.length ≤ 8 * c.nBbuf ∨ bits.length ≤ c.nCbuf) : (deframe bits).out.length ≤ c.nTbuf := by
  obtain ⟨-, -, -, hbbuf, hcbuf, -⟩ := cfg_wf_iff.1 hw
  have hp := deframe_payload_le bits
  rw [deframe_out_length]
  omega

theorem inBuffer_iff {c : Config} {b : Buf} {a : Nat} :
    inBuffer c b a = true ↔ bufBase b ≤ a ∧ a < bufBase b + bufSize c b := by
  simp [inBuffer]

theorem mapped_of_inBuffer {c : Config} {b : Buf} {a : Nat} (h : inBuffer c b a = true) : mapped c a = true :=
  List.any_eq_true.2 ⟨b, by cases b <;> decide, h⟩

/-! ### The state's updates keep the invariant -/

/-- Bytes stored wholly inside an implemented buffer. -/
theorem storeBytes_inv {s : State} (h : s.Inv) (b : Buf) {off : Nat} {bs : List Byte}
    (hfit : off + bs.length ≤ bufSize s.cfg b) : (s.storeBytes (bufBase b + off) bs).Inv :=
  { h with
    memWf := storeBytes_wf h.memWf _ _
    memMapped := fun cell hcell => by
      rcases mem_storeBytes hcell with hnew | hold
      · exact mapped_of_inBuffer (b := b) (inBuffer_iff.2 (by simp only [storeBytes_cfg]; omega))
      · exact h.memMapped cell hold }

theorem setReqAvail_inv {s : State} (h : s.Inv) {req avail : Nat} (hreq : req < 2 ^ 36) (havail : avail < 2 ^ 34) :
    (setReqAvail req avail s).Inv :=
  { h with
    reqBound := (Nat.mod_le _ _).trans_lt hreq
    availBound := (Nat.mod_le _ _).trans_lt havail }

theorem setAvail_inv {s : State} (h : s.Inv) {avail : Nat} (havail : avail < 2 ^ 34) : (setAvail avail s).Inv :=
  { h with availBound := (Nat.mod_le _ _).trans_lt havail }

/-- The end of a decode (R43, R44, R115), of a sequence that the registers can count. -/
theorem emitDecoded_inv {s : State} (h : s.Inv) {bits : List Bool} (hbits : bits.length < 2 ^ 32)
    (hfit : (deframe bits).out.length ≤ s.cfg.nTbuf) : (emitDecoded (deframe bits) s).Inv :=
  have hdec := emitDecoded_spec (s := s) hbits
  have hout := deframe_out_length bits
  { storeBytes_inv h .tbuf (off := 0) (by simpa [bufSize] using hfit) with
    decReserved := hdec.reserved
    outLenPayload := hdec.outLen.trans (hout.trans (congrArg (· / 8) hdec.payload.symm))
    discardedPayload := hdec.discarded.trans (congrArg (· % 8) hdec.payload.symm)
    outLenFits := hdec.outLen.trans_le hfit }

theorem finish_inv {s : State} (h : s.Inv) (c : OutcomeCode) {info : Word} (hinfo : info.toNat < 2 ^ 16) :
    (finish c info s).Inv :=
  { h with
    doneIdle := fun _ => rfl
    busyErr := fun hbusy => by simp at hbusy
    errReserved := hinfo }

theorem commandStart_inv {s : State} (h : s.Inv) (v : Word) : (commandStart v s).Inv :=
  { h with
    doneIdle := fun hdone => by simp at hdone
    busyErr := fun _ => rfl }

theorem writeStatus_inv {s : State} (h : s.Inv) (v : Word) : (writeStatus v s).Inv :=
  { h with doneIdle := fun hdone => h.doneIdle (Bool.and_elim_left hdone) }

/-- Reset leaves an empty memory and every register 0 (R221). -/
theorem resetEngine_inv (s : State) : (resetEngine s).Inv where
  memWf := List.Pairwise.nil
  memMapped := fun _ hcell => absurd hcell List.not_mem_nil
  doneIdle := fun _ => rfl
  busyErr := fun _ => rfl
  decReserved := Nat.two_pow_pos _
  errReserved := Nat.two_pow_pos _
  outLenPayload := (Nat.zero_div 8).symm
  discardedPayload := by rw [discarded, show (resetEngine s).decInfo = 0 from rfl]; rfl
  outLenFits := Nat.zero_le _
  reqBound := Nat.two_pow_pos _
  availBound := Nat.two_pow_pos _

/-! ### Commands -/

/-- ERR_INFO of a format error: the sample width above the channel count (R48, R195). -/
theorem errorInfo_unsupportedFormat_toNat (ch sw : Byte) :
    (errorInfo (.unsupportedFormat ch sw)).toNat = sw.toNat * 2 ^ 8 + ch.toNat := by
  have hch := ch.isLt
  have hsw := sw.isLt
  rw [errorInfo, BitVec.toNat_or, BitVec.toNat_shiftLeft, BitVec.toNat_setWidth, BitVec.toNat_setWidth,
    Nat.mod_eq_of_lt (a := sw.toNat) (by omega), Nat.mod_eq_of_lt (a := ch.toNat) (by omega),
    Nat.mod_eq_of_lt (by rw [Nat.shiftLeft_eq]; omega), ← Nat.shiftLeft_add_eq_or_of_lt hch, Nat.shiftLeft_eq]

/-- ERR_INFO has only its two bytes (R48, R195). -/
theorem errorInfo_lt (e : CmdError) : (errorInfo e).toNat < 2 ^ 16 := by
  cases e with
  | unsupportedFormat ch sw =>
    have hch := ch.isLt
    have hsw := sw.isLt
    rw [errorInfo_unsupportedFormat_toNat]
    omega
  | _ => exact Nat.two_pow_pos _

/-- Taking an error that a command raises (R195): the counts of a capacity error are bounded. -/
theorem raiseError_inv {s : State} (h : s.Inv) {e : CmdError}
    (hcap : ∀ req avail, e = .capacity req avail → req < 2 ^ 36 ∧ avail < 2 ^ 34) : (raiseError e s).Inv := by
  refine finish_inv ?_ _ (errorInfo_lt e)
  cases e with
  | capacity req avail =>
    obtain ⟨hreq, havail⟩ := hcap req avail rfl
    exact setReqAvail_inv h hreq havail
  | _ => exact h

theorem effect_error_counts {i : Instr} {s : State} {req avail : Nat} (h : effect i s = .error (.capacity req avail)) :
    req < 2 ^ 36 ∧ avail < 2 ^ 34 := by
  obtain hf | hr | ⟨a, he, ha⟩ := effect_error h
  · simp at hf
  · simp at hr
  · obtain ⟨rfl, rfl⟩ := CmdError.capacity.inj he
    refine ⟨required_opL_lt s, ?_⟩
    obtain rfl | rfl := ha
    · exact imgUnits_lt s
    · exact (opN_lt s).trans (by decide)

/-- What a command stages keeps the invariant. -/
theorem effect_ok_inv {i : Instr} {s u : State} (hw : s.cfg.wf = true) (h : s.Inv) (hu : effect i s = .ok u) :
    u.Inv := by
  obtain ⟨⟨-, hcbuf⟩, -⟩ := cfg_wf_iff.1 hw
  have hreq := required_opL_lt s
  have himg := imgUnits_lt s
  have haud : opN s < 2 ^ 34 := (opN_lt s).trans (by decide)
  cases i with
  | frameEncode =>
    obtain ⟨⟨-, hfit⟩, rfl⟩ := frameEncodeEffect_ok_iff.1 hu
    exact { storeBytes_inv h .bbuf (off := 0) (by simpa [packedFrame_length, bufSize] using hfit) with }
  | frameDecode =>
    obtain ⟨hfit, rfl⟩ := frameDecodeEffect_ok_iff.1 hu
    exact emitDecoded_inv h ((bbufBits_length _ _).trans_lt s.bitLen.isLt)
      (deframe_out_fits hw (.inl (by simpa using hfit)))
  | imgCapacity =>
    obtain rfl := Except.ok.inj hu
    exact setAvail_inv h himg
  | audCapacity =>
    obtain rfl := Except.ok.inj hu
    exact setAvail_inv h haud
  | imgValidate =>
    obtain ⟨-, rfl⟩ := validateEffect_ok_iff.1 hu
    exact setReqAvail_inv h hreq himg
  | audValidate =>
    obtain ⟨-, rfl⟩ := validateEffect_ok_iff.1 hu
    exact setReqAvail_inv h hreq haud
  | imgEmbed =>
    obtain ⟨⟨-, hfit, -⟩, rfl⟩ := imgEmbedEffect_ok_iff.1 hu
    exact setReqAvail_inv (storeBytes_inv h .obuf (off := 0) (by simpa [bufSize] using hfit)) hreq himg
  | imgExtract src =>
    obtain ⟨hfit, rfl⟩ := imgExtractEffect_ok_iff.1 hu
    exact emitDecoded_inv h (by simp; omega) (deframe_out_fits hw (.inr (by simpa using hfit)))
  | audEmbed =>
    obtain ⟨⟨-, -, hfit, -⟩, rfl⟩ := audEmbedEffect_ok_iff.1 hu
    exact { setReqAvail_inv (storeBytes_inv h .obuf (off := 0) (by simpa [bufSize] using hfit)) hreq haud with }
  | audExtract src =>
    obtain ⟨⟨-, hfit⟩, rfl⟩ := audExtractEffect_ok_iff.1 hu
    exact emitDecoded_inv h (by simp; omega) (deframe_out_fits hw (.inr (by simp; omega)))

theorem exec_inv {i : Instr} {s t : State} (hw : s.cfg.wf = true) (h : s.Inv) (ht : exec i s = .next t) : t.Inv := by
  obtain ⟨u, hu, rfl⟩ | ⟨e, he, rfl⟩ := exec_next_iff.1 ht
  · exact finish_inv (effect_ok_inv hw h hu) _ (by decide)
  · exact raiseError_inv h fun req avail hcap => effect_error_counts (hcap ▸ he)

/-! ### Turns -/

theorem engineTurn_inv {s t : State} (hw : s.cfg.wf = true) (h : s.Inv) (ht : engineTurn s = .next t) : t.Inv := by
  obtain ⟨-, rfl⟩ | ⟨-, ⟨i, -, hi⟩ | ⟨-, rfl⟩⟩ := engineTurn_next ht
  · exact h
  · exact exec_inv hw h hi
  · exact raiseError_inv h (by simp)

theorem writeReg_inv {s : State} (h : s.Inv) (r : Reg) (v : Word) : (writeReg r v s).Inv := by
  cases r with
  | status => exact writeStatus_inv h v
  | cmd => exact commandStart_inv h v
  | _ => exact { h with }

/-- A host write that takes effect: a write of a buffer lies inside it (R64). -/
theorem writeTarget_inv {s : State} (h : s.Inv) {address : Word} {size : Size} {tg : Target} (v : Word)
    (htg : target s.cfg address size = some tg) : (writeTarget tg size v s).Inv := by
  cases tg with
  | reg r => exact writeReg_inv h r v
  | reserved => exact h
  | buffer b off => exact storeBytes_inv h b (by simpa using (target_buffer htg).2.1)

theorem hostAccess_inv {a : Access} {s t : State} (h : s.Inv) (ht : hostAccess a s = .next t) : t.Inv := by
  cases a with
  | read address size =>
    obtain ⟨tg, -, ⟨-, -, rfl⟩ | ⟨-, rfl⟩⟩ := hostRead_next ht
    · exact { h with }
    · exact { h with }
  | write address size v =>
    obtain ⟨tg, htg, ⟨-, -, rfl⟩ | ⟨-, rfl⟩⟩ := hostWrite_next ht
    · exact { h with }
    · exact writeTarget_inv h v htg

/-- A step is a turn of the engine, of the host or of the environment, on the state with that turn off the list: the
engine's when it is first or when the list is used up (R18, R78). -/
theorem step_next_cases {s t : State} (h : step s = .next t) :
    s.cfg.wf = true ∧ ∃ ts,
      ((s.turns = [] ∨ s.turns = .engine :: ts) ∧ engineTurn { s with turns := ts } = .next t)
        ∨ (∃ a, s.turns = .host a :: ts ∧ hostAccess a { s with turns := ts } = .next t)
        ∨ (s.turns = .reset :: ts ∧ t = resetEngine { s with turns := ts }) := by
  obtain ⟨hw, ⟨hts, hengine⟩ | ⟨ts, ⟨hts, hengine⟩ | hother⟩⟩ := step_next h
  · exact ⟨hw, s.turns, .inl ⟨.inl hts, hengine⟩⟩
  · exact ⟨hw, ts, .inl ⟨.inr hts, hengine⟩⟩
  · exact ⟨hw, ts, .inr hother⟩

/-- Settles O53: each kind of turn keeps the invariant, and the list of turns is no part of it. -/
theorem stepKeepsInvariant : Obligations.StepKeepsInvariant := by
  intro s t h hst
  obtain ⟨hw, ts, ⟨-, hengine⟩ | ⟨a, -, hhost⟩ | ⟨-, rfl⟩⟩ := step_next_cases hst
  · exact engineTurn_inv (s := { s with turns := ts }) hw { h with } hengine
  · exact hostAccess_inv (s := { s with turns := ts }) { h with } hhost
  · exact resetEngine_inv _

end Sys2Proof.Proofs
end

section
/-! What a command can write and what it reads (R50, R52): one lemma says which fields each command may write, and the
rules over all commands follow from it. -/

namespace Sys2Proof.Proofs

open Sys2Proof.Machine Sys2Proof.Laws

/-! ### The fields each command writes -/

/-- `s` with the fields that command `i` may write, beside STATUS and ERR_INFO, taken from `t` (R37 to R47, R52). -/
def ownWrites (i : Instr) (s t : State) : State :=
  match i with
  | .frameEncode => { s with mem := t.mem, bitLen := t.bitLen }
  | .frameDecode | .imgExtract _ | .audExtract _ =>
    { s with mem := t.mem, outLen := t.outLen, payloadBits := t.payloadBits, decInfo := t.decInfo }
  | .imgCapacity | .audCapacity => { s with availBits := t.availBits }
  | .imgValidate | .audValidate => { s with reqBits := t.reqBits, availBits := t.availBits }
  | .imgEmbed => { s with mem := t.mem, reqBits := t.reqBits, availBits := t.availBits }
  | .audEmbed =>
    { s with
      mem := t.mem, reqBits := t.reqBits, availBits := t.availBits
      outAudFmt := t.outAudFmt, outAudRate := t.outAudRate, outAudNsamp := t.outAudNsamp }

theorem effect_ok_writes_own {i : Instr} {s u : State} (hu : effect i s = .ok u) : u = ownWrites i s u := by
  cases i with
  | frameEncode => obtain ⟨-, rfl⟩ := frameEncodeEffect_ok_iff.1 hu; rfl
  | frameDecode => obtain ⟨-, rfl⟩ := frameDecodeEffect_ok_iff.1 hu; rfl
  | imgCapacity => obtain rfl := Except.ok.inj hu; rfl
  | audCapacity => obtain rfl := Except.ok.inj hu; rfl
  | imgValidate => obtain ⟨-, rfl⟩ := validateEffect_ok_iff.1 hu; rfl
  | audValidate => obtain ⟨-, rfl⟩ := validateEffect_ok_iff.1 hu; rfl
  | imgEmbed => obtain ⟨-, rfl⟩ := imgEmbedEffect_ok_iff.1 hu; rfl
  | imgExtract src => obtain ⟨-, rfl⟩ := imgExtractEffect_ok_iff.1 hu; rfl
  | audEmbed => obtain ⟨-, rfl⟩ := audEmbedEffect_ok_iff.1 hu; rfl
  | audExtract src => obtain ⟨-, rfl⟩ := audExtractEffect_ok_iff.1 hu; rfl

/-- CAPACITY is an error of the validate and embed commands only (R194). -/
theorem effect_error_capacity {i : Instr} {s : State} {req avail : Nat}
    (h : effect i s = .error (.capacity req avail)) :
    i = .imgValidate ∨ i = .audValidate ∨ i = .imgEmbed ∨ i = .audEmbed := by
  cases i with
  | frameEncode => simp only [effect, frameEncodeEffect] at h; split at h <;> simp at h
  | frameDecode => simp only [effect, frameDecodeEffect] at h; split at h <;> simp at h
  | imgCapacity => simp [effect] at h
  | audCapacity => simp [effect] at h
  | imgExtract src => simp only [effect, imgExtractEffect] at h; split at h <;> simp at h
  | audExtract src =>
    simp only [effect, audExtractEffect] at h
    split at h
    · simp at h
    · split at h <;> simp at h
  | _ => simp

/-- An error records its two counts only where the command writes them on success too (R195). -/
theorem raiseError_writes_own {i : Instr} {s : State} {e : CmdError} (he : effect i s = .error e) :
    raiseError e s = finish (errorCode e) (errorInfo e) (ownWrites i s (raiseError e s)) := by
  cases e with
  | capacity req avail => obtain rfl | rfl | rfl | rfl := effect_error_capacity he <;> rfl
  | _ => cases i <;> rfl

/-- What a completion writes: STATUS, ERR_INFO and the fields of its command. -/
theorem exec_writes_own {i : Instr} {s t : State} (ht : exec i s = .next t) :
    t = finish t.err t.errInfo (ownWrites i s t) := by
  obtain ⟨u, hu, rfl⟩ | ⟨e, he, rfl⟩ := exec_next_iff.1 ht
  · exact (congrArg completeOk (effect_ok_writes_own hu)).trans (by cases i <;> rfl)
  · simpa using raiseError_writes_own he

theorem ownWrites_bitLen {i : Instr} (hi : i ≠ .frameEncode) (s t : State) : (ownWrites i s t).bitLen = s.bitLen := by
  cases i with
  | frameEncode => exact absurd rfl hi
  | _ => rfl

theorem ownWrites_decode {i : Instr}
    (hi : i ≠ .frameDecode ∧ (∀ src, i ≠ .imgExtract src) ∧ ∀ src, i ≠ .audExtract src) (s t : State) :
    (ownWrites i s t).outLen = s.outLen ∧ (ownWrites i s t).decInfo = s.decInfo
      ∧ (ownWrites i s t).payloadBits = s.payloadBits := by
  obtain ⟨hframe, himg, haud⟩ := hi
  cases i with
  | frameDecode => exact absurd rfl hframe
  | imgExtract src => exact absurd rfl (himg src)
  | audExtract src => exact absurd rfl (haud src)
  | _ => exact ⟨rfl, rfl, rfl⟩

theorem ownWrites_outAud {i : Instr} (hi : i ≠ .audEmbed) (s t : State) :
    (ownWrites i s t).outAudFmt = s.outAudFmt ∧ (ownWrites i s t).outAudRate = s.outAudRate
      ∧ (ownWrites i s t).outAudNsamp = s.outAudNsamp := by
  cases i with
  | audEmbed => exact absurd rfl hi
  | _ => exact ⟨rfl, rfl, rfl⟩

@[simp] theorem ownWrites_werr (i : Instr) (s t : State) : (ownWrites i s t).werr = s.werr := by cases i <;> rfl

@[simp] theorem ownWrites_epoch (i : Instr) (s t : State) : (ownWrites i s t).epoch = s.epoch := by cases i <;> rfl

/-- Settles O21: each group of fields is read off `ownWrites`. -/
theorem eachCommandWritesOnlyItsOwn : Obligations.EachCommandWritesOnlyItsOwn := by
  intro i s t ht
  have hown := exec_writes_own ht
  refine ⟨?_, fun hi => ?_, fun hi => ?_, fun hi => ?_, fun hi => ?_, fun hi => ?_, fun hi => ?_⟩
  · rw [hown]
    cases i <;> exact ⟨rfl, rfl, rfl, rfl, rfl, rfl, rfl, rfl, rfl, rfl, rfl, rfl, rfl⟩
  · exact (congrArg State.bitLen hown).trans (ownWrites_bitLen hi s t)
  · refine (congrArg State.reqBits hown).trans ?_
    obtain rfl | rfl | rfl | rfl | ⟨src, rfl⟩ | ⟨src, rfl⟩ := hi <;> rfl
  · refine (congrArg State.availBits hown).trans ?_
    obtain rfl | rfl | ⟨src, rfl⟩ | ⟨src, rfl⟩ := hi <;> rfl
  · rw [hown]
    exact ownWrites_decode hi s t
  · rw [hown]
    exact ownWrites_outAud hi s t
  · refine (congrArg State.mem hown).trans ?_
    obtain rfl | rfl | rfl | rfl := hi <;> rfl

/-! ### The memory a command writes -/

/-- A command stores bytes in one output buffer, inside its implemented size, or none at all (R52, R75). -/
theorem effect_ok_mem {i : Instr} {s u : State} (hw : s.cfg.wf = true) (hu : effect i s = .ok u) :
    u.mem = s.mem ∨ ∃ b bs, (b = .obuf ∨ b = .bbuf ∨ b = .tbuf) ∧ bs.length ≤ bufSize s.cfg b
      ∧ u.mem = s.mem.storeBytes (bufBase b) bs := by
  cases i with
  | frameEncode =>
    obtain ⟨⟨-, hfit⟩, rfl⟩ := frameEncodeEffect_ok_iff.1 hu
    exact .inr ⟨.bbuf, _, by simp, (packedFrame_length s).trans_le hfit, rfl⟩
  | frameDecode =>
    obtain ⟨hfit, rfl⟩ := frameDecodeEffect_ok_iff.1 hu
    exact .inr ⟨.tbuf, _, by simp, deframe_out_fits hw (.inl (by simpa using hfit)), rfl⟩
  | imgCapacity => obtain rfl := Except.ok.inj hu; exact .inl rfl
  | audCapacity => obtain rfl := Except.ok.inj hu; exact .inl rfl
  | imgValidate => obtain ⟨-, rfl⟩ := validateEffect_ok_iff.1 hu; exact .inl rfl
  | audValidate => obtain ⟨-, rfl⟩ := validateEffect_ok_iff.1 hu; exact .inl rfl
  | imgEmbed =>
    obtain ⟨⟨-, hfit, -⟩, rfl⟩ := imgEmbedEffect_ok_iff.1 hu
    exact .inr ⟨.obuf, _, by simp, by simpa [bufSize] using hfit, rfl⟩
  | imgExtract src =>
    obtain ⟨hfit, rfl⟩ := imgExtractEffect_ok_iff.1 hu
    exact .inr ⟨.tbuf, _, by simp, deframe_out_fits hw (.inr (by simpa using hfit)), rfl⟩
  | audEmbed =>
    obtain ⟨⟨-, -, hfit, -⟩, rfl⟩ := audEmbedEffect_ok_iff.1 hu
    exact .inr ⟨.obuf, _, by simp, by simpa [bufSize] using hfit, rfl⟩
  | audExtract src =>
    obtain ⟨⟨-, hfit⟩, rfl⟩ := audExtractEffect_ok_iff.1 hu
    exact .inr ⟨.tbuf, _, by simp, deframe_out_fits hw (.inr (by simp; omega)), rfl⟩

/-- The same of the completed command: an error changes no byte (R195). -/
theorem exec_mem {i : Instr} {s t : State} (hw : s.cfg.wf = true) (ht : exec i s = .next t) :
    t.mem = s.mem ∨ ∃ b bs, (b = .obuf ∨ b = .bbuf ∨ b = .tbuf) ∧ bs.length ≤ bufSize s.cfg b
      ∧ t.mem = s.mem.storeBytes (bufBase b) bs := by
  obtain ⟨u, hu, rfl⟩ | ⟨e, -, rfl⟩ := exec_next_iff.1 ht
  · rw [completeOk_mem]
    exact effect_ok_mem hw hu
  · exact .inl (raiseError_mem e s)

/-- Settles O20: a byte outside the stored ones reads as before. -/
theorem engineWritesOnlyOutputBuffers : Obligations.EngineWritesOnlyOutputBuffers := by
  intro i s t hw ht a hne
  have hepoch : t.epoch = s.epoch := (congrArg State.epoch (exec_writes_own ht)).trans (ownWrites_epoch i s t)
  obtain hmem | ⟨b, bs, hb, hlen, hmem⟩ := exec_mem hw ht
  · exact absurd (byte_congr hmem hepoch a) hne
  · have hbyte := byte_congr (s := s.storeBytes (bufBase b) bs) hmem hepoch a
    have hin : inBuffer s.cfg b a = true := by
      by_contra hout
      rw [inBuffer_iff] at hout
      exact hne (hbyte.trans (byte_storeBytes_out s _ _ (by omega)))
    obtain rfl | rfl | rfl := hb
    · exact .inl hin
    · exact .inr (.inl hin)
    · exact .inr (.inr hin)

/-! ### Flags are not read -/

/-- `s` with the flags of R50, and PENDING, of `g`. -/
def flagsFrom (g s : State) : State :=
  { s with
    phase := g.phase, done := g.done, werr := g.werr, ie := g.ie, err := g.err, pending := g.pending
    decInfo := g.decInfo }

/-- The commands that write DEC_INFO when they complete with OK (R43). -/
abbrev Decodes (i : Instr) : Prop :=
  i = .frameDecode ∨ i = .imgExtract .cbuf ∨ i = .imgExtract .obuf ∨ i = .audExtract .cbuf ∨ i = .audExtract .obuf

/-- What command `i` stages, with the flags of `g` but for a DEC_INFO it wrote. -/
def stagedFlagsFrom (g : State) (i : Instr) (u : State) : State :=
  { flagsFrom g u with decInfo := if Decodes i then u.decInfo else g.decInfo }

/-- The pseudocode of a command commutes with replacing the flags (R50). -/
theorem effect_flagsFrom (g : State) (i : Instr) (s : State) :
    effect i (flagsFrom g s) = (effect i s).map (stagedFlagsFrom g i) := by
  cases i with
  | frameEncode => simp only [effect, frameEncodeEffect, apply_ite (Except.map _)]; rfl
  | frameDecode => simp only [effect, frameDecodeEffect, apply_ite (Except.map _)]; rfl
  | imgCapacity => rfl
  | audCapacity => rfl
  | imgValidate => simp only [effect, validateEffect, apply_ite (Except.map _)]; rfl
  | audValidate => simp only [effect, validateEffect, apply_ite (Except.map _)]; rfl
  | imgEmbed => simp only [effect, imgEmbedEffect, apply_ite (Except.map _)]; rfl
  | imgExtract src => cases src <;> simp only [effect, imgExtractEffect, apply_ite (Except.map _)] <;> rfl
  | audEmbed => simp only [effect, audEmbedEffect, apply_ite (Except.map _)]; rfl
  | audExtract src => cases src <;> simp only [effect, audExtractEffect, apply_ite (Except.map _)] <;> rfl

/-- The completed command, with the flags of `g` that it does not write. -/
def completedFlagsFrom (g : State) (i : Instr) (t : State) : State :=
  { t with
    werr := g.werr, ie := g.ie, pending := g.pending
    decInfo := if t.err = .ok ∧ Decodes i then t.decInfo else g.decInfo }

theorem raiseError_flagsFrom (g : State) (i : Instr) (e : CmdError) (s : State) :
    raiseError e (flagsFrom g s) = completedFlagsFrom g i (raiseError e s) := by
  have herr : (raiseError e s).err ≠ .ok := by cases e <;> simp [errorCode]
  simp only [completedFlagsFrom, herr, false_and, if_false]
  cases e <;> rfl

theorem completeOk_stagedFlagsFrom (g : State) (i : Instr) (u : State) :
    completeOk (stagedFlagsFrom g i u) = completedFlagsFrom g i (completeOk u) := by
  simp only [completedFlagsFrom, completeOk_err, true_and]
  rfl

theorem exec_flagsFrom (g : State) {i : Instr} {s t : State} (ht : exec i s = .next t) :
    exec i (flagsFrom g s) = .next (completedFlagsFrom g i t) := by
  rw [exec_eq_complete, effect_flagsFrom]
  obtain ⟨u, hu, rfl⟩ | ⟨e, he, rfl⟩ := exec_next_iff.1 ht
  · rw [hu, ← completeOk_stagedFlagsFrom]
    rfl
  · rw [he, ← raiseError_flagsFrom]
    rfl

/-- Settles O22: the seven values of the statement are the flags of one other state. -/
theorem commandsReadNoFlag : Obligations.CommandsReadNoFlag := by
  intro i s t p d w e c v dec ht
  exact exec_flagsFrom { s with phase := p, done := d, werr := w, ie := e, err := c, pending := v, decInfo := dec } ht

end Sys2Proof.Proofs
end

section
/-! The engine's turn and the host's accesses: what each answers (R41, R42), and what they do to the registers and the
flags (R23 to R49). -/

namespace Sys2Proof.Proofs

open Sys2Proof.Machine Sys2Proof.Laws

/-! ### The engine's turn -/

theorem engineTurn_idle {s : State} (hp : s.phase = .idle) : engineTurn s = .next s := by
  simp [engineTurn, hp]

theorem engineTurn_busy {s : State} (hp : s.phase = .busy) : engineTurn s = completionStep s := by
  simp [engineTurn, hp]

theorem completionStep_ok {s : State} {i : Instr} (hi : decode s.pending = .ok i) : completionStep s = exec i s := by
  simp [completionStep, hi]

theorem completionStep_error {s : State} {e : DecodeError} (he : decode s.pending = .error e) :
    completionStep s = .next (raiseError .illegalCommand s) := by
  simp [completionStep, he]

/-- Settles O6: the engine's turn of a BUSY engine is the completion step, which decodes PENDING. -/
theorem stepRunsTheDecodedCommand : Obligations.StepRunsTheDecodedCommand := by
  intro s i hw hp hi
  refine ⟨fun ht => ?_, fun ts ht => ?_⟩
  · rw [step_empty hw ht, engineTurn_busy hp, completionStep_ok hi]
  · rw [step_engine hw ht]
    exact (engineTurn_busy (s := { s with turns := ts }) hp).trans (completionStep_ok hi)

theorem append_toNat {m n : Nat} (x : BitVec m) (y : BitVec n) : (x ++ y).toNat = x.toNat * 2 ^ n + y.toNat := by
  rw [BitVec.toNat_append, ← Nat.shiftLeft_add_eq_or_of_lt y.isLt, Nat.shiftLeft_eq]

/-- The four little-endian bytes of a number make up its 32-bit word (R60). -/
theorem wordOfBytes_ofNat (w : Nat) :
    wordOfBytes (BitVec.ofNat 8 w) (BitVec.ofNat 8 (w / 2 ^ 8)) (BitVec.ofNat 8 (w / 2 ^ 16))
      (BitVec.ofNat 8 (w / 2 ^ 24)) = BitVec.ofNat 32 w := by
  apply BitVec.eq_of_toNat_eq
  simp only [wordOfBytes, append_toNat, BitVec.toNat_ofNat]
  omega

/-- The table's reading of a word is the decoder's. -/
theorem decode_of_decodeTableWord {w : Nat} {i : Instr} (h : decodeTableWord 32 w = some i) :
    decode (BitVec.ofNat 32 w) = .ok i := by
  simp only [decodeTableWord, decodeBytes, wordOfBytes_ofNat] at h
  split at h
  · split at h
    · next j hj => rw [hj, Option.some.inj h]
    · simp at h
  · simp at h

/-- Settles O7: the placed word is PENDING, and the engine's turn is first. -/
theorem startedWordRunsNext : Obligations.StartedWordRunsNext := by
  intro s w i hw hlt hi
  have hstep : step (s.withFetchWord 32 w) = engineTurn (commandStart (BitVec.ofNat 32 (w % 2 ^ 32)) s) :=
    step_engine (s := s.withFetchWord 32 w) hw rfl
  rw [hstep, Nat.mod_eq_of_lt hlt, engineTurn_busy (commandStart_phase ..)]
  exact completionStep_ok (decode_of_decodeTableWord hi)

/-- Every command completes (R42). -/
theorem exec_answers (i : Instr) (s : State) : ∃ t, exec i s = .next t := by
  rw [exec_eq_complete]
  cases effect i s with
  | ok u => exact ⟨_, rfl⟩
  | error e => exact ⟨_, rfl⟩

theorem completionStep_answers (s : State) : ∃ t, completionStep s = .next t := by
  cases hd : decode s.pending with
  | ok i => rw [completionStep_ok hd]; exact exec_answers i s
  | error e => exact ⟨_, completionStep_error hd⟩

/-- A completion is of a command or of an illegal word: it writes STATUS and ERR_INFO, and leaves WERR. -/
theorem completionStep_flags {s t : State} (ht : completionStep s = .next t) :
    t.phase = .idle ∧ t.done = true ∧ t.werr = s.werr := by
  obtain ⟨i, -, hi⟩ | ⟨-, rfl⟩ := completionStep_next ht
  · have hown := exec_writes_own hi
    exact ⟨congrArg State.phase hown, congrArg State.done hown,
      (congrArg State.werr hown).trans (ownWrites_werr i s t)⟩
  · exact ⟨rfl, rfl, rfl⟩

/-- ERR_INFO of a format error is the low half of AUD_FMT (R195). -/
theorem errorInfo_audFmt (s : State) :
    (errorInfo (.unsupportedFormat (opCh s) (opSw s))).toNat = s.audFmt.toNat % 2 ^ 16 := by
  rw [errorInfo_unsupportedFormat_toNat, opCh, opSw]
  simp only [BitVec.extractLsb'_toNat, Nat.shiftRight_eq_div_pow]
  omega

/-- ERR_INFO is 0 unless the outcome is UNSUPPORTED_FORMAT, and then the low half of AUD_FMT (R42, R48). -/
theorem completionStep_errInfo {s t : State} (ht : completionStep s = .next t) :
    (t.err ≠ .unsupportedFormat → t.errInfo = 0)
      ∧ (t.err = .unsupportedFormat → t.errInfo.toNat = s.audFmt.toNat % 2 ^ 16) := by
  obtain ⟨i, -, hi⟩ | ⟨-, rfl⟩ := completionStep_next ht
  · obtain ⟨u, -, rfl⟩ | ⟨e, he, rfl⟩ := exec_next_iff.1 hi
    · simp
    · obtain rfl | rfl | ⟨avail, rfl, -⟩ := effect_error he
      · exact ⟨fun hne => absurd rfl hne, fun _ => errorInfo_audFmt s⟩
      · simp [errorCode, errorInfo]
      · simp [errorCode, errorInfo]
  · simp [errorCode, errorInfo]

/-- Settles O9: the completion step always answers. -/
theorem engineCompletesExactlyWhenBusy : Obligations.EngineCompletesExactlyWhenBusy := by
  refine fun s => ⟨engineTurn_idle, fun hp => ?_⟩
  obtain ⟨t, ht⟩ := completionStep_answers s
  obtain ⟨hphase, hdone, -⟩ := completionStep_flags ht
  exact ⟨t, (engineTurn_busy hp).trans ht, hphase, hdone, completionStep_errInfo ht⟩

/-! ### What a host access answers -/

theorem exemptFromDrop_iff {tg : Target} : exemptFromDrop tg = true ↔ tg = .reg .ctrl ∨ tg = .reg .status := by
  cases tg with
  | reg r => cases r <;> simp [exemptFromDrop]
  | reserved => simp [exemptFromDrop]
  | buffer b off => simp [exemptFromDrop]

/-- An answered access at a register's address reaches that register and nothing else. -/
theorem target_eq_reg {c : Config} {address : Word} {size : Size} {tg : Target} {r : Reg}
    (htg : target c address size = some tg) (ha : address.toNat = regOffset r) : tg = .reg r := by
  cases tg with
  | reg r' =>
    have hoff : regOffset r' = regOffset r := (target_reg htg).1.symm.trans ha
    exact congrArg Target.reg (Option.some.inj ((regAt_regOffset r').symm.trans (hoff ▸ regAt_regOffset r)))
  | reserved => exact absurd ha.symm ((target_reserved htg).2.2.1 r)
  | buffer b off =>
    have hbase := (target_buffer htg).1
    have hwindow := le_bufBase b
    have hreg : regOffset r < 0x100 := by cases r <;> decide
    omega

/-- The one address and size with which an access reaches a register (R23, R63). -/
theorem address_of_target_reg {c : Config} {address : Word} {size : Size} {r : Reg}
    (htg : target c address size = some (.reg r)) : address = BitVec.ofNat 32 (regOffset r) ∧ size = .b32 := by
  obtain ⟨ha, hsize⟩ := target_reg htg
  exact ⟨by rw [← ha, BitVec.ofNat_toNat, BitVec.setWidth_eq], hsize⟩

/-- An answered access while BUSY: a read, a dropped write, or a write of CTRL or STATUS (R73, R74). -/
theorem hostAccess_next_of_busy {a : Access} {s t : State} (hp : s.phase = .busy) (ht : hostAccess a s = .next t) :
    t = { s with lastRead := t.lastRead, draws := t.draws } ∨ t = dropWrite s
      ∨ ∃ v, t = writeCtrl v s ∨ t = writeStatus v s := by
  cases a with
  | read address size =>
    obtain ⟨tg, -, ⟨-, -, rfl⟩ | ⟨-, rfl⟩⟩ := hostRead_next ht
    · exact .inl rfl
    · exact .inl rfl
  | write address size v =>
    obtain ⟨tg, -, ⟨-, -, rfl⟩ | ⟨hexempt, rfl⟩⟩ := hostWrite_next ht
    · exact .inr (.inl rfl)
    · obtain rfl | rfl := exemptFromDrop_iff.1 (by simpa [hp] using hexempt)
      · exact .inr (.inr ⟨v, .inl rfl⟩)
      · exact .inr (.inr ⟨v, .inr rfl⟩)

/-- Settles O48: none of the accesses answered while BUSY writes what a command reads. -/
theorem busyFreezesInputs : Obligations.BusyFreezesInputs := by
  intro s t a ts hp hts hst
  obtain ⟨hw, -⟩ := step_next hst
  rw [step_host hw hts] at hst
  obtain heq | rfl | ⟨v, rfl | rfl⟩ := hostAccess_next_of_busy (s := { s with turns := ts }) hp hst
  · rw [heq]
    exact ⟨hp, rfl, rfl, rfl, rfl, rfl, rfl, rfl, rfl, rfl, rfl⟩
  -- The three kinds of write change IE, DONE and WERR only.
  all_goals exact ⟨hp, rfl, rfl, rfl, rfl, rfl, rfl, rfl, rfl, rfl, rfl⟩

/-! ### The sticky flags -/

/-- WERR after a write that takes effect: only a write of STATUS clears it (R29). -/
theorem writeTarget_werr (tg : Target) (size : Size) (v : Word) (s : State) :
    (writeTarget tg size v s).werr = if tg = .reg .status then s.werr && !v.getLsbD 2 else s.werr := by
  cases tg with
  | reg r => cases r <;> rfl
  | reserved => rfl
  | buffer b off => rfl

/-- DONE after a write that takes effect: a write of STATUS and one of CMD clear it (R28). -/
theorem writeTarget_done (tg : Target) (size : Size) (v : Word) (s : State) :
    (writeTarget tg size v s).done =
      if tg = .reg .status then s.done && !v.getLsbD 1 else if tg = .reg .cmd then false else s.done := by
  cases tg with
  | reg r => cases r <;> rfl
  | reserved => rfl
  | buffer b off => rfl

/-- What a host access does to WERR, as what it takes to change it (R29, R73). -/
theorem hostAccess_werr {a : Access} {s t : State} (ht : hostAccess a s = .next t) :
    (s.werr = true → t.werr = false → ∃ v, a = .write 0x00000008#32 .b32 v ∧ v.getLsbD 2 = true)
      ∧ (s.werr = false → t.werr = true → s.phase = .busy ∧ ∃ address size v, a = .write address size v
        ∧ target s.cfg address size ≠ none ∧ address ≠ 0x00000004#32 ∧ address ≠ 0x00000008#32) := by
  cases a with
  | read address size =>
    have hwerr : t.werr = s.werr := by
      obtain ⟨tg, -, ⟨-, -, rfl⟩ | ⟨-, rfl⟩⟩ := hostRead_next ht <;> rfl
    exact ⟨fun h h' => by simp [hwerr, h] at h', fun h h' => by simp [hwerr, h] at h'⟩
  | write address size v =>
    obtain ⟨tg, htg, ⟨hp, hdrop, rfl⟩ | ⟨-, rfl⟩⟩ := hostWrite_next ht
    · refine ⟨fun _ h => by simp at h, fun _ _ => ⟨hp, address, size, v, rfl, by simp [htg], ?_, ?_⟩⟩
      · rintro rfl
        rw [target_eq_reg (r := .ctrl) htg rfl] at hdrop
        simp [exemptFromDrop] at hdrop
      · rintro rfl
        rw [target_eq_reg (r := .status) htg rfl] at hdrop
        simp [exemptFromDrop] at hdrop
    · rw [writeTarget_werr]
      split
      · next hstatus =>
        subst hstatus
        obtain ⟨rfl, rfl⟩ := address_of_target_reg htg
        exact ⟨fun h h' => ⟨v, rfl, by simpa [h] using h'⟩, fun h h' => by simp [h] at h'⟩
      · exact ⟨fun h h' => by simp [h] at h', fun h h' => by simp [h] at h'⟩

/-- What a host access does to DONE: it can only clear it, by a start or by a write of STATUS (R28). -/
theorem hostAccess_done {a : Access} {s t : State} (ht : hostAccess a s = .next t) :
    (s.done = false → t.done = false)
      ∧ (s.done = true → t.done = false →
        (∃ v, a = .write 0x0000000C#32 .b32 v ∧ s.phase = .idle ∧ t.phase = .busy)
          ∨ ∃ v, a = .write 0x00000008#32 .b32 v ∧ v.getLsbD 1 = true) := by
  cases a with
  | read address size =>
    have hdone : t.done = s.done := by
      obtain ⟨tg, -, ⟨-, -, rfl⟩ | ⟨-, rfl⟩⟩ := hostRead_next ht <;> rfl
    exact ⟨hdone.trans, fun h h' => by simp [hdone, h] at h'⟩
  | write address size v =>
    obtain ⟨tg, htg, ⟨-, -, rfl⟩ | ⟨hidle, rfl⟩⟩ := hostWrite_next ht
    · exact ⟨id, fun h h' => by simp [h] at h'⟩
    · rw [writeTarget_done]
      split
      · next hstatus =>
        subst hstatus
        obtain ⟨rfl, rfl⟩ := address_of_target_reg htg
        exact ⟨fun h => by simp [h], fun h h' => .inr ⟨v, rfl, by simpa [h] using h'⟩⟩
      · split
        · next hcmd =>
          subst hcmd
          obtain ⟨rfl, rfl⟩ := address_of_target_reg htg
          have hp : s.phase = .idle := by
            cases hp : s.phase with
            | idle => rfl
            | busy => exact absurd ⟨hp, rfl⟩ hidle
          exact ⟨fun _ => rfl, fun _ _ => .inl ⟨v, rfl, hp, rfl⟩⟩
        · exact ⟨id, fun h h' => by simp [h] at h'⟩

/-- What the engine's turn does to the flags: nothing while IDLE, and a completion leaves WERR and sets DONE. -/
theorem engineTurn_flags {s t : State} (ht : engineTurn s = .next t) :
    t.werr = s.werr ∧ (s.done = true → t.done = true)
      ∧ (s.done = false → t.done = true → s.phase = .busy ∧ t.phase = .idle) := by
  cases hp : s.phase with
  | idle =>
    obtain rfl := Host.Outcome.next.inj ((engineTurn_idle hp).symm.trans ht)
    exact ⟨rfl, id, fun h h' => absurd (h.symm.trans h') Bool.false_ne_true⟩
  | busy =>
    obtain ⟨hphase, hdone, hwerr⟩ := completionStep_flags ((engineTurn_busy hp).symm.trans ht)
    exact ⟨hwerr, fun _ => hdone, fun _ _ => ⟨rfl, hphase⟩⟩

/-- Settles O49: by the kinds of turn; the engine's leaves WERR. -/
theorem werrIsSticky : Obligations.WerrIsSticky := by
  intro s t hst
  obtain ⟨-, ts, ⟨-, hengine⟩ | ⟨a, hts, hhost⟩ | ⟨hts, rfl⟩⟩ := step_next_cases hst
  · obtain ⟨hwerr, -⟩ := engineTurn_flags hengine
    exact ⟨fun h h' => by simp [hwerr, h] at h', fun h h' => by simp [hwerr, h] at h'⟩
  · obtain ⟨hclear, hset⟩ := hostAccess_werr hhost
    refine ⟨fun h h' => ?_, fun h h' => ?_⟩
    · obtain ⟨v, rfl, hv⟩ := hclear h h'
      exact .inl ⟨v, ts, hts, hv⟩
    · obtain ⟨hp, address, size, v, rfl, htarget⟩ := hset h h'
      exact ⟨hp, address, size, v, ts, hts, htarget⟩
  · exact ⟨fun _ _ => .inr ⟨ts, hts⟩, fun _ h' => absurd h' Bool.false_ne_true⟩

/-- Settles O50: by the kinds of turn; only a completion sets DONE. -/
theorem doneFollowsCompletions : Obligations.DoneFollowsCompletions := by
  intro s t hst
  obtain ⟨-, ts, ⟨hts, hengine⟩ | ⟨a, hts, hhost⟩ | ⟨hts, rfl⟩⟩ := step_next_cases hst
  · obtain ⟨-, hkeep, hset⟩ := engineTurn_flags hengine
    refine ⟨fun h h' => ?_, fun h h' => absurd (hkeep h) (by simp [h'])⟩
    obtain ⟨hp, hp'⟩ := hset h h'
    exact ⟨hp, hp', hts.imp_right fun hfirst => ⟨ts, hfirst⟩⟩
  · obtain ⟨hset, hclear⟩ := hostAccess_done hhost
    refine ⟨fun h h' => absurd (hset h) (by simp [h']), fun h h' => ?_⟩
    obtain ⟨v, rfl, hp, hbusy⟩ | ⟨v, rfl, hv⟩ := hclear h h'
    · exact .inl ⟨v, ts, hts, hp, hbusy⟩
    · exact .inr (.inl ⟨v, ts, hts, hv⟩)
  · exact ⟨fun _ h' => absurd h' Bool.false_ne_true, fun _ _ => .inr (.inr ⟨ts, hts⟩)⟩

/-! ### Register accesses -/

/-- A 32-bit read of a register that is no free read (R72, R74). -/
theorem step_read_reg (s : State) (r : Reg) (ts : List Turn) (hw : s.cfg.wf = true)
    (hr : s.phase = .idle ∨ isOutput (.reg r) = false) :
    step { s with turns := .host (.read (BitVec.ofNat 32 (regOffset r)) .b32) :: ts } =
      .next { s with lastRead := some (readReg r s), turns := ts } := by
  have hfree : ¬(s.phase = .busy ∧ isOutput (.reg r) = true) := by
    rintro ⟨hp, ho⟩
    simp [hp, ho] at hr
  rw [step_host_turn s _ ts hw]
  simp only [hostAccess, hostRead, target_regOffset, if_neg hfree]
  cases r <;> rfl

/-- A 32-bit write of a register that is not dropped (R72, R73). -/
theorem step_write_reg (s : State) (r : Reg) (v : Word) (ts : List Turn) (hw : s.cfg.wf = true)
    (hr : s.phase = .idle ∨ exemptFromDrop (.reg r) = true) :
    step { s with turns := .host (.write (BitVec.ofNat 32 (regOffset r)) .b32 v) :: ts } =
      .next (writeReg r v { s with turns := ts }) := by
  have hkept : ¬(s.phase = .busy ∧ exemptFromDrop (.reg r) = false) := by
    rintro ⟨hp, he⟩
    simp [hp, he] at hr
  rw [step_host_turn s _ ts hw]
  simp only [hostAccess, hostWrite, target_regOffset, if_neg hkept]
  rfl

/-- Settles O8: CMD's own write is the command start. -/
theorem cmdWriteStartsCommand : Obligations.CmdWriteStartsCommand := by
  intro s v ts hw hp hts
  have hs : s = { s with turns := .host (.write 0x0000000C#32 .b32 v) :: ts } := by rw [← hts]
  rw [hs]
  exact step_write_reg s .cmd v ts hw (.inl hp)

/-- Settles O38: CTRL and STATUS are the two registers whose writes are never dropped. -/
theorem controlAndStatusWrites : Obligations.ControlAndStatusWrites := by
  intro s v ts hw
  refine ⟨step_write_reg s .ctrl v ts hw (.inr rfl), (step_write_reg s .status v ts hw (.inr rfl)).trans ?_⟩
  simp only [writeReg, writeStatus]
  cases v.getLsbD 1 <;> cases v.getLsbD 2 <;> simp

/-- ID and the result registers ignore writes (R72). -/
theorem writeReg_readOnly {r : Reg} (hr : regOffset r = 0 ∨ 0x28 ≤ regOffset r) (v : Word) (s : State) :
    writeReg r v s = s := by
  cases r <;> simp [regOffset] at hr <;> rfl

/-- The first 21 words of the register window are registers (R23). -/
theorem exists_regOffset_eq {k : Nat} (hk : k < 21) : ∃ r, regOffset r = 4 * k := by
  have hall : ∀ k : Fin 21, ∃ r ∈ allRegs, regOffset r = 4 * k := by decide
  obtain ⟨r, -, hr⟩ := hall ⟨k, hk⟩
  exact ⟨r, hr⟩

/-- Settles O39: each parameter register's own write, and the read-only registers by their offsets. -/
theorem idleRegisterWrites : Obligations.IdleRegisterWrites := by
  intro s v ts hw hp
  have hwrite (r : Reg) := step_write_reg s r v ts hw (.inl hp)
  refine ⟨hwrite .msgLen, hwrite .imgDim, hwrite .audNsamp, hwrite .audFmt, hwrite .audRate, hwrite .bitLen,
    fun k hk => ?_⟩
  obtain ⟨r, hoff⟩ := exists_regOffset_eq (show k < 21 by omega)
  rw [← hoff, hwrite r, writeReg_readOnly (by omega)]

/-- The word offsets above ERR_INFO in the register window are reserved (R49). -/
theorem target_reservedOffset (c : Config) {k : Nat} (hlo : 0x54 ≤ 4 * k) (hhi : 4 * k ≤ 0xFC) :
    target c (BitVec.ofNat 32 (4 * k)) .b32 = some .reserved := by
  have hnone : regAt (4 * k) = none := by
    refine List.find?_eq_none.2 fun r _ => ?_
    have hr : regOffset r ≤ 0x50 := by cases r <;> decide
    simp only [decide_eq_true_eq]
    omega
  have ha : (BitVec.ofNat 32 (4 * k)).toNat = 4 * k := by rw [BitVec.toNat_ofNat]; omega
  simp [target, ha, hnone, show 4 * k < 256 by omega]

/-- Settles O37: a reserved offset is no output location, holds 0, and its write stores nothing. -/
theorem reservedOffsets : Obligations.ReservedOffsets := by
  intro s k v ts hw hlo hhi
  have htg := target_reservedOffset s.cfg hlo hhi
  refine ⟨?_, fun hp => ?_⟩
  · rw [step_host_turn s _ ts hw]
    simp [hostAccess, hostRead, htg, isOutput, readTarget]
  · rw [step_host_turn s _ ts hw]
    simp [hostAccess, hostWrite, htg, hp, writeTarget]

/-- STATUS as a number (R26): its four fields stand at bits 0, 1, 2 and 11:8. -/
theorem statusWord_toNat (s : State) :
    (statusWord s).toNat = (if s.phase = .busy then 1 else 0) + 2 * s.done.toNat + 4 * s.werr.toNat
      + 256 * (outcomeBits s.err).toNat := by
  have hfields : ∀ (b d w : Bool) (c : BitVec 4),
      (flagWord b ||| (flagWord d <<< 1) ||| (flagWord w <<< 2) ||| (c.setWidth 32 <<< 8)).toNat =
        b.toNat + 2 * d.toNat + 4 * w.toNat + 256 * c.toNat := by decide
  rw [statusWord, hfields]
  cases s.phase <;> rfl

theorem ctrlWord_toNat (s : State) : (ctrlWord s).toNat = s.ie.toNat := by
  unfold ctrlWord
  cases s.ie <;> rfl

/-- The two words of a 64-bit register (R38, R39). -/
theorem words_toNat (x : BitVec 64) :
    (x.extractLsb' 0 32).toNat + 2 ^ 32 * (x.extractLsb' 32 32).toNat = x.toNat := by
  have hx := x.isLt
  simp only [BitVec.extractLsb'_toNat, Nat.shiftRight_eq_div_pow]
  omega

/-- The codes of the outcomes (R30, R190). -/
theorem outcomeBits_toNat (c : OutcomeCode) :
    (outcomeBits c).toNat = if c = .illegalCommand then 1 else if c = .unsupportedFormat then 2
      else if c = .range then 3 else if c = .capacity then 4 else 0 := by
  cases c <;> rfl

/-- Settles O36: every clause is `step_read_reg` of one register. -/
theorem registerReads : Obligations.RegisterReads := by
  refine ⟨fun s r ts hw hr hts => ?_, fun s => ?_, fun s ts hw => ?_⟩
  · have hs : s = { s with turns := .host (.read (BitVec.ofNat 32 (regOffset r)) .b32) :: ts } := by rw [← hts]
    rw [hs]
    exact step_read_reg s r ts hw hr
  · exact ⟨rfl, rfl, ctrlWord_toNat s, statusWord_toNat s, words_toNat s.reqBits, words_toNat s.availBits⟩
  · have hstored (r : Reg) (hr : isOutput (.reg r) = false) := step_read_reg s r ts hw (.inr hr)
    refine ⟨⟨hstored .id rfl, ⟨ctrlWord s, hstored .ctrl rfl, ctrlWord_toNat s⟩,
      ⟨statusWord s, hstored .status rfl, ?_⟩, hstored .cmd rfl, hstored .msgLen rfl, hstored .imgDim rfl,
      hstored .audNsamp rfl, hstored .audFmt rfl, hstored .audRate rfl⟩, fun hp => ?_⟩
    · rw [statusWord_toNat, outcomeBits_toNat]
    · have hread (r : Reg) := step_read_reg s r ts hw (.inl hp)
      exact ⟨hread .bitLen, hread .reqBitsLo, hread .reqBitsHi, hread .availBitsLo, hread .availBitsHi, hread .outLen,
        hread .decInfo, hread .payloadBits, hread .outAudFmt, hread .outAudRate, hread .outAudNsamp, hread .errInfo⟩

end Sys2Proof.Proofs
end

section
/-! Memory and the address map (20_memory.md): which accesses are answered, what an answered access of a buffer does
byte by byte, and what becomes of an access while BUSY. -/

namespace Sys2Proof.Proofs

open Sys2Proof.Machine Sys2Proof.Laws

/-! ### What a read and a write answer, by their target -/

theorem hostRead_unmapped {address : Word} {size : Size} {s : State} (htg : target s.cfg address size = none) :
    hostRead address size s = .fault (.busError (.read address size)) := by
  simp [hostRead, htg]

theorem hostWrite_unmapped {address : Word} {size : Size} {s : State} (v : Word)
    (htg : target s.cfg address size = none) :
    hostWrite address size v s = .fault (.busError (.write address size v)) := by
  simp [hostWrite, htg]

theorem hostRead_free {address : Word} {size : Size} {tg : Target} {s : State}
    (htg : target s.cfg address size = some tg) (hp : s.phase = .busy) (ho : isOutput tg = true) :
    hostRead address size s = .next { s with lastRead := some (freeReadData s size), draws := s.draws + 1 } := by
  simp [hostRead, htg, hp, ho]

theorem hostRead_stored {address : Word} {size : Size} {tg : Target} {s : State}
    (htg : target s.cfg address size = some tg) (hstored : ¬(s.phase = .busy ∧ isOutput tg = true)) :
    hostRead address size s = .next { s with lastRead := some (readTarget tg size s) } := by
  simp only [hostRead, htg, if_neg hstored]

theorem hostWrite_dropped {address : Word} {size : Size} {tg : Target} {s : State} (v : Word)
    (htg : target s.cfg address size = some tg) (hp : s.phase = .busy) (he : exemptFromDrop tg = false) :
    hostWrite address size v s = .next (dropWrite s) := by
  simp [hostWrite, htg, hp, he]

theorem hostWrite_kept {address : Word} {size : Size} {tg : Target} {s : State} (v : Word)
    (htg : target s.cfg address size = some tg) (hkept : ¬(s.phase = .busy ∧ exemptFromDrop tg = false)) :
    hostWrite address size v s = .next (writeTarget tg size v s) := by
  simp only [hostWrite, htg, if_neg hkept]

theorem hostRead_answers {address : Word} {size : Size} {tg : Target} {s : State}
    (htg : target s.cfg address size = some tg) : ∃ t, hostRead address size s = .next t := by
  by_cases hfree : s.phase = .busy ∧ isOutput tg = true
  · exact ⟨_, hostRead_free htg hfree.1 hfree.2⟩
  · exact ⟨_, hostRead_stored htg hfree⟩

theorem hostWrite_answers {address : Word} {size : Size} {tg : Target} {s : State} (v : Word)
    (htg : target s.cfg address size = some tg) : ∃ t, hostWrite address size v s = .next t := by
  by_cases hdrop : s.phase = .busy ∧ exemptFromDrop tg = false
  · exact ⟨_, hostWrite_dropped v htg hdrop.1 hdrop.2⟩
  · exact ⟨_, hostWrite_kept v htg hdrop⟩

/-- The one fault of a host access is its own bus error (R65). -/
theorem hostAccess_fault {a : Access} {s : State} {f : Fault} (h : hostAccess a s = .fault f) : f = .busError a := by
  cases a with
  | read address size =>
    cases htg : target s.cfg address size with
    | none => exact (Host.Outcome.fault.inj ((hostRead_unmapped htg).symm.trans h)).symm
    | some tg =>
      obtain ⟨t, ht⟩ := hostRead_answers htg
      exact absurd (ht.symm.trans h) (by simp)
  | write address size v =>
    cases htg : target s.cfg address size with
    | none => exact (Host.Outcome.fault.inj ((hostWrite_unmapped v htg).symm.trans h)).symm
    | some tg =>
      obtain ⟨t, ht⟩ := hostWrite_answers v htg
      exact absurd (ht.symm.trans h) (by simp)

/-- Settles O35: a step that faults is not refused, so it is the host's access. -/
theorem busErrorChangesNothing : Obligations.BusErrorChangesNothing := by
  intro s a ts f hts hst
  have hw : s.cfg.wf = true := by
    by_contra hw
    exact absurd ((step_of_not_wf hw).symm.trans hst) (by simp)
  have hafter : afterBusError s = { s with turns := ts } := by simp [afterBusError, hts]
  exact ⟨hostAccess_fault ((step_host hw hts).symm.trans hst), by simp only [stepOn, hst, hafter], hafter⟩

/-! ### The address map -/

/-- A naturally aligned access wholly inside an implemented buffer (R64). -/
def insideBuffer (c : Config) (address : Word) (size : Size) (b : Buf) : Prop :=
  bufBase b ≤ address.toNat ∧ address.toNat + sizeBytes size ≤ bufBase b + bufSize c b
    ∧ address.toNat % sizeBytes size = 0

/-- `target_eq_buffer_iff`, with the window apart from the offset. -/
theorem target_eq_buffer_iff_inside {c : Config} (hw : c.wf = true) {address : Word} {size : Size} {b : Buf}
    {off : Nat} :
    target c address size = some (.buffer b off) ↔ insideBuffer c address size b ∧ address.toNat = bufBase b + off := by
  rw [target_eq_buffer_iff hw, insideBuffer]
  constructor
  · rintro ⟨ha, hend, halign⟩
    exact ⟨⟨by omega, by omega, halign⟩, ha⟩
  · rintro ⟨⟨-, hend, halign⟩, ha⟩
    exact ⟨ha, by omega, halign⟩

/-- Every aligned 32-bit access of the register window reaches something (R63). -/
theorem target_registerWindow (c : Config) {address : Word} (ha : address.toNat < 0x100)
    (halign : address.toNat % 4 = 0) : ∃ tg, target c address .b32 = some tg := by
  cases hr : regAt address.toNat with
  | some r => exact ⟨.reg r, by simp [target, ha, halign, hr]⟩
  | none => exact ⟨.reserved, by simp [target, ha, halign, hr]⟩

/-- The accesses that are no bus error (R63, R64, R66). -/
theorem exists_target_iff {c : Config} (hw : c.wf = true) {address : Word} {size : Size} :
    (∃ tg, target c address size = some tg) ↔
      (address.toNat < 0x100 ∧ size = .b32 ∧ address.toNat % 4 = 0) ∨ ∃ b, insideBuffer c address size b := by
  constructor
  · rintro ⟨tg, htg⟩
    cases tg with
    | reg r =>
      obtain ⟨ha, hsize⟩ := target_reg htg
      have hreg : regOffset r < 0x100 ∧ regOffset r % 4 = 0 := by cases r <;> decide
      exact .inl ⟨ha ▸ hreg.1, hsize, ha ▸ hreg.2⟩
    | reserved =>
      obtain ⟨ha, halign, -, hsize⟩ := target_reserved htg
      exact .inl ⟨ha, hsize, halign⟩
    | buffer b off => exact .inr ⟨b, ((target_eq_buffer_iff_inside hw).1 htg).1⟩
  · rintro (⟨ha, rfl, halign⟩ | ⟨b, hinside⟩)
    · exact target_registerWindow c ha halign
    · exact ⟨_, (target_eq_buffer_iff_inside hw).2 ⟨hinside, (Nat.add_sub_of_le hinside.1).symm⟩⟩

/-- The five windows, written out (R66). -/
theorem exists_insideBuffer_iff {c : Config} {address : Word} {size : Size} :
    (∃ b, insideBuffer c address size b) ↔
      insideBuffer c address size .cbuf ∨ insideBuffer c address size .obuf ∨ insideBuffer c address size .mbuf
        ∨ insideBuffer c address size .bbuf ∨ insideBuffer c address size .tbuf := by
  constructor
  · rintro ⟨b, hb⟩
    cases b <;> simp [hb]
  · rintro (h | h | h | h | h) <;> exact ⟨_, h⟩

/-- Settles O34: an access is a bus error exactly when it has no target, and `exists_target_iff` says when it has. -/
theorem busErrorsAreExactlyTheIllegalAccesses : Obligations.BusErrorsAreExactlyTheIllegalAccesses := by
  intro s address size v ts hw inside mappedAccess window
  have hmap : (∃ tg, target s.cfg address size = some tg) ↔ mappedAccess :=
    (exists_target_iff hw).trans (or_congr_right exists_insideBuffer_iff)
  have hwindow (b : Buf) : window b (bufBase b) (bufSize s.cfg b) :=
    ⟨rfl, rfl, fun off => target_eq_buffer_iff_inside hw⟩
  refine ⟨fun hno => ?_, fun hyes => ?_, hwindow .cbuf, hwindow .obuf, hwindow .mbuf, hwindow .bbuf, hwindow .tbuf⟩
  · have htg : target s.cfg address size = none :=
      Option.eq_none_iff_forall_ne_some.2 fun tg htg => hno (hmap.1 ⟨tg, htg⟩)
    rw [step_host_turn s _ ts hw, step_host_turn s _ ts hw]
    exact ⟨hostRead_unmapped htg, hostWrite_unmapped v htg⟩
  · obtain ⟨tg, htg⟩ := hmap.2 hyes
    rw [step_host_turn s _ ts hw, step_host_turn s _ ts hw]
    exact ⟨hostRead_answers htg, hostWrite_answers v htg⟩

/-- Settles O43: the windows of two buffers are 2^24 bytes apart, and each buffer fits its window. -/
theorem buffersAreDisjoint : Obligations.BuffersAreDisjoint := by
  intro c b b' a hw hb hb'
  obtain ⟨hlo, hhi⟩ := inBuffer_iff.1 hb
  obtain ⟨hlo', hhi'⟩ := inBuffer_iff.1 hb'
  have hsize := bufSize_le hw b
  have hsize' := bufSize_le hw b'
  have hmod := bufBase_mod b
  have hmod' := bufBase_mod b'
  have hbase : bufBase b = bufBase b' := by omega
  have hsame := bufOfWindow_bufBase b
  rw [hbase, bufOfWindow_bufBase] at hsame
  exact (Option.some.inj hsame).symm

/-! ### Bytes and values (R60, R62) -/

theorem extractByte_eq (v : Word) (i : Nat) : v.extractLsb' (8 * i) 8 = BitVec.ofNat 8 (v.toNat / 256 ^ i) := by
  rw [BitVec.extractLsb', Nat.shiftRight_eq_div_pow, Nat.pow_mul]

theorem memRead_lt (s : State) (a n : Nat) : memRead s a n < 256 ^ n := by
  simpa [memRead] using leValue_lt (s.bytes a n)

/-- Byte i of the value read is the byte at that place. -/
theorem memRead_byte (s : State) (a : Nat) {n i : Nat} (hi : i < n) :
    BitVec.ofNat 8 (memRead s a n / 256 ^ i) = s.byte (a + i) := by
  have hbytes : leBytes n (memRead s a n) = s.bytes a n := by
    simpa [memRead] using leBytes_leValue (s.bytes a n)
  rw [← leBytes_getElem n (memRead s a n) i (by simpa using hi)]
  simp [hbytes]

theorem memWrite_byte (s : State) (a v : Nat) {n i : Nat} (hi : i < n) :
    (memWrite s a n v).byte (a + i) = BitVec.ofNat 8 (v / 256 ^ i) := by
  rw [memWrite, byte_storeBytes_in s a _ (by simpa using hi), leBytes_getElem]

theorem memWrite_unchangedOutside (s : State) (a n v : Nat) : unchangedOutside s (memWrite s a n v) a n :=
  fun _ h => byte_storeBytes_out s a _ (by simpa using h)

theorem pow_sizeBytes_le (z : Size) : 256 ^ sizeBytes z ≤ 2 ^ 32 := by cases z <;> decide

/-- The data of a buffer read as a number: nothing is lost in 32 bits. -/
theorem readBuffer_toNat (b : Buf) (off : Nat) (size : Size) (s : State) :
    (readTarget (.buffer b off) size s).toNat = memRead s (bufBase b + off) (sizeBytes size) :=
  (BitVec.toNat_ofNat ..).trans (Nat.mod_eq_of_lt ((memRead_lt ..).trans_le (pow_sizeBytes_le size)))

/-- The data of a buffer read, byte by byte, and its bits above the width of the access. -/
theorem readBuffer_spec (b : Buf) (off : Nat) (size : Size) (s : State) :
    (∀ i, i < sizeBytes size →
      (readTarget (.buffer b off) size s).extractLsb' (8 * i) 8 = s.byte (bufBase b + off + i))
      ∧ (readTarget (.buffer b off) size s).toNat < 256 ^ sizeBytes size := by
  refine ⟨fun i hi => ?_, ?_⟩
  · rw [extractByte_eq, readBuffer_toNat, memRead_byte s _ hi]
  · rw [readBuffer_toNat]
    exact memRead_lt ..

/-- A step that reads a buffer's stored bytes: what the data is, and that nothing else changes. -/
theorem step_read_buffer {s : State} {address : Word} {size : Size} {b : Buf} {off : Nat} (ts : List Turn)
    (hw : s.cfg.wf = true) (htg : target s.cfg address size = some (.buffer b off))
    (hstored : ¬(s.phase = .busy ∧ isOutput (.buffer b off) = true)) :
    ∃ w, step { s with turns := .host (.read address size) :: ts } = .next { s with lastRead := some w, turns := ts }
      ∧ (∀ i, i < sizeBytes size → w.extractLsb' (8 * i) 8 = s.byte (address.toNat + i))
      ∧ w.toNat < 256 ^ sizeBytes size := by
  rw [step_host_turn s _ ts hw, (target_buffer htg).1]
  exact ⟨_, hostRead_stored (s := { s with turns := ts }) htg hstored,
    readBuffer_spec b off size { s with turns := ts }⟩

/-- Settles O42: a write while IDLE is `memWrite`, and a read is of the stored bytes. -/
theorem bufferAccessesAreLittleEndian : Obligations.BufferAccessesAreLittleEndian := by
  intro s address size v b off ts hw hp htg
  constructor
  · rw [step_host_turn s _ ts hw, (target_buffer htg).1]
    refine ⟨_, hostWrite_kept (s := { s with turns := ts }) v htg (by simp [hp]), rfl, fun i hi => ?_, ?_⟩
    · rw [extractByte_eq]
      exact memWrite_byte _ _ _ hi
    · exact memWrite_unchangedOutside { s with turns := ts } _ _ _
  · obtain ⟨w, hst, hdata⟩ := step_read_buffer ts hw htg (by simp [hp])
    exact ⟨_, w, hst, rfl, hdata⟩

/-! ### Accesses while BUSY (R73, R74) -/

/-- A state whose next turn is known, with that turn written into it. -/
theorem eq_with_turns {s : State} {t : Turn} {ts : List Turn} (hts : s.turns = t :: ts) :
    s = { s with turns := t :: ts } := by
  rw [← hts]

/-- Settles O40: a target whose write is not dropped is reached at CTRL's or STATUS's address only. -/
theorem busyWritesAreDropped : Obligations.BusyWritesAreDropped := by
  intro s address size v ts hw hp hts
  refine ⟨fun hmapped hctrl hstatus => ?_, ?_, ?_, fun hnone => ?_⟩
  · obtain ⟨tg, htg⟩ := Option.ne_none_iff_exists'.1 hmapped
    have hdrop : exemptFromDrop tg = false := by
      rw [Bool.eq_false_iff, Ne, exemptFromDrop_iff]
      rintro (rfl | rfl)
      · exact hctrl (address_of_target_reg htg).1
      · exact hstatus (address_of_target_reg htg).1
    exact (step_host hw hts).trans (hostWrite_dropped (s := { s with turns := ts }) v htg hp hdrop)
  · rintro rfl rfl
    rw [eq_with_turns hts]
    exact (controlAndStatusWrites s v ts hw).1
  · rintro rfl rfl
    rw [eq_with_turns hts]
    exact (controlAndStatusWrites s v ts hw).2
  · exact (step_host hw hts).trans (hostWrite_unmapped (s := { s with turns := ts }) v hnone)

theorem freeReadData_toNat (s : State) (size : Size) :
    (freeReadData s size).toNat = (Config.freeRead s.draws).toNat % 256 ^ sizeBytes size :=
  (BitVec.toNat_ofNat ..).trans (Nat.mod_eq_of_lt ((Nat.mod_le ..).trans_lt (Config.freeRead s.draws).isLt))

/-- The output registers are those from BIT_LEN on (R23, R74). -/
theorem isOutput_reg_iff (r : Reg) : isOutput (.reg r) = true ↔ 0x24 ≤ regOffset r := by cases r <;> decide

theorem isOutput_buffer_iff (b : Buf) (off : Nat) :
    isOutput (.buffer b off) = true ↔ b = .obuf ∨ b = .bbuf ∨ b = .tbuf := by
  cases b <;> simp [isOutput]

/-- The output locations (R74). -/
theorem isOutput_iff (tg : Target) : isOutput tg = true ↔
    (∃ off, tg = .buffer .obuf off ∨ tg = .buffer .bbuf off ∨ tg = .buffer .tbuf off)
      ∨ ∃ r, tg = .reg r ∧ 0x24 ≤ regOffset r := by
  cases tg with
  | reg r => simp [isOutput_reg_iff]
  | reserved => simp [isOutput]
  | buffer b off => simp [isOutput_buffer_iff, exists_or]

/-- Settles O41: a read of an output location is a draw, and CBUF and MBUF are none. -/
theorem busyReads : Obligations.BusyReads := by
  refine ⟨fun s address size tg ts hw hp htg ho hts => ?_, fun s address size b off ts hw hb htg hts => ?_,
    isOutput_iff⟩
  · exact ⟨_, (step_host hw hts).trans (hostRead_free (s := { s with turns := ts }) htg hp ho),
      freeReadData_toNat { s with turns := ts } size⟩
  · have hstored : ¬isOutput (.buffer b off) = true := by
      obtain rfl | rfl := hb <;> simp [isOutput]
    rw [eq_with_turns hts]
    exact step_read_buffer ts hw htg fun h => hstored h.2

/-! ### Image units (R67, R68) -/

theorem lsbImg_getElem? (s : State) (base : Nat) {n k : Nat} (hk : k < n) :
    (lsbImg s base n)[k]? = some ((s.byte (base + k)).getLsbD 0) := by
  simp [lsbImg, hk]

/-- Rows of w units one after the other: the place of column x in row y lies below h rows. -/
theorem rasterIndex_lt {w h x y : Nat} (hx : x < w) (hy : y < h) : y * w + x < h * w :=
  calc y * w + x < y * w + w := Nat.add_lt_add_left hx _
    _ = (y + 1) * w := (Nat.succ_mul y w).symm
    _ ≤ h * w := Nat.mul_le_mul_right w hy

/-- Settles O31: the channel and the pixel's number by 3, the column and the row by W. -/
theorem imageUnitsInRasterOrder : Obligations.ImageUnitsInRasterOrder := by
  intro s base w h x y c hx hy hc
  have hpixel := rasterIndex_lt hx hy
  have hindex : 3 * (y * w + x) + c < capImg w h := by
    rw [capImg, Nat.mul_assoc, Nat.mul_comm w h]
    omega
  have hdiv : (3 * (y * w + x) + c) / 3 = y * w + x := by omega
  refine ⟨hindex, by omega, ?_, ?_, lsbImg_getElem? s base hindex⟩
  · rw [hdiv, Nat.mul_add_mod', Nat.mod_eq_of_lt hx]
  · rw [hdiv, Nat.mul_comm y w, Nat.mul_add_div (Nat.zero_lt_of_lt hx), Nat.div_eq_of_lt hx, Nat.add_zero]

end Sys2Proof.Proofs
end

section
/-! The command word (30_encoding.md): a word is its three fields, which fields decode to which command (R90 to R97),
what an illegal word does (R191), and the operands in the parameter registers (R91). -/

namespace Sys2Proof.Proofs

open Sys2Proof.Machine Sys2Proof.Laws

/-! ### The fields -/

theorem opField_eq (v : Word) : opField v = v.toNat % 2 ^ 8 := by
  simp [opField, BitVec.extractLsb'_toNat]

theorem srcField_iff (v : Word) : srcField v = true ↔ v.toNat / 2 ^ 8 % 2 = 1 := by
  rw [srcField, BitVec.getLsbD, Nat.testBit_eq_decide_div_mod_eq, decide_eq_true_iff]

theorem rsvField_eq (v : Word) : rsvField v = v.toNat / 2 ^ 9 := by
  have hlt := v.isLt
  rw [rsvField, BitVec.extractLsb'_toNat, Nat.shiftRight_eq_div_pow]
  omega

/-- The three fields cover the word (R90). -/
theorem word_eq_of_fields {v w : Word} (hop : opField v = opField w) (hsrc : srcField v = srcField w)
    (hrsv : rsvField v = rsvField w) : v = w := by
  have hbit : v.toNat / 2 ^ 8 % 2 = 1 ↔ w.toNat / 2 ^ 8 % 2 = 1 := by
    rw [← srcField_iff, ← srcField_iff, hsrc]
  rw [opField_eq, opField_eq] at hop
  rw [rsvField_eq, rsvField_eq] at hrsv
  apply BitVec.eq_of_toNat_eq
  omega

theorem rsvField_encode (i : Instr) : rsvField (encode i) = 0 := by
  cases i with
  | imgExtract src => cases src <;> rfl
  | audExtract src => cases src <;> rfl
  | _ => rfl

/-! ### Decode and encode -/

/-- A command without an operand has its OP and SRC = 0 in its word. -/
theorem fields_of_plainCommand {op : Nat} {i : Instr} (h : plainCommand op = some i) :
    op = opField (encode i) ∧ srcField (encode i) = false := by
  unfold plainCommand at h
  split_ifs at h with hop <;> obtain rfl := Option.some.inj h <;> exact ⟨‹_›, rfl⟩

/-- The OPs of R92 are 1 to 10, and 8 and 10 are those of the extract commands. -/
theorem plainCommand_eq_none_iff (op : Nat) :
    plainCommand op = none ↔ ¬(1 ≤ op ∧ op ≤ 10) ∨ op = 8 ∨ op = 10 := by
  unfold plainCommand
  split_ifs <;> simp <;> omega

/-- A decoded word has the fields of its command's word. -/
theorem fields_of_decode {v : Word} {i : Instr} (h : decode v = .ok i) :
    rsvField v = 0 ∧ opField v = opField (encode i) ∧ srcField v = srcField (encode i) := by
  unfold decode at h
  split at h
  · cases h
  next hrsv =>
  refine ⟨not_not.mp hrsv, ?_⟩
  split at h
  next hop =>
    cases h
    cases srcField v <;> exact ⟨hop, rfl⟩
  split at h
  next hop =>
    cases h
    cases srcField v <;> exact ⟨hop, rfl⟩
  split at h
  · cases h
  next hplain =>
  split at h
  · cases h
  next hsrc =>
  cases h
  obtain ⟨hop, hsrcEncode⟩ := fields_of_plainCommand hplain
  exact ⟨hop, (Bool.eq_false_of_not_eq_true hsrc).trans hsrcEncode.symm⟩

theorem decode_encode (i : Instr) : decode (encode i) = .ok i := by
  cases i with
  | frameEncode => exact RoundTrip.frameEncode
  | frameDecode => exact RoundTrip.frameDecode
  | imgCapacity => exact RoundTrip.imgCapacity
  | audCapacity => exact RoundTrip.audCapacity
  | imgValidate => exact RoundTrip.imgValidate
  | audValidate => exact RoundTrip.audValidate
  | imgEmbed => exact RoundTrip.imgEmbed
  | imgExtract src => exact RoundTrip.imgExtract src
  | audEmbed => exact RoundTrip.audEmbed
  | audExtract src => exact RoundTrip.audExtract src

theorem decode_eq_ok_iff {v : Word} {i : Instr} : decode v = .ok i ↔ v = encode i := by
  refine ⟨fun h => ?_, fun h => h ▸ decode_encode i⟩
  obtain ⟨hrsv, hop, hsrc⟩ := fields_of_decode h
  exact word_eq_of_fields hop hsrc (hrsv.trans (rsvField_encode i).symm)

/-- Settles O1: a decoded word has all three fields of its command's word. -/
theorem decodeIsExactlyEncode : Obligations.DecodeIsExactlyEncode :=
  fun _ _ => decode_eq_ok_iff

/-! ### Legal and illegal words -/

theorem legal_iff (v : Word) : legal v = true ↔
    rsvField v = 0 ∧ (1 ≤ opField v ∧ opField v ≤ 10) ∧ (srcField v = true → opField v = 8 ∨ opField v = 10) := by
  cases hsrc : srcField v <;> simp [legal, hsrc, and_assoc]

theorem legal_encode (i : Instr) : legal (encode i) = true := by
  cases i with
  | imgExtract src => cases src <;> rfl
  | audExtract src => cases src <;> rfl
  | _ => rfl

/-- Each of the decoder's reasons is a clause of R95 that fails. -/
theorem not_legal_of_decode_error {v : Word} {e : DecodeError} (h : decode v = .error e) : ¬legal v = true := by
  rw [legal_iff]
  rintro ⟨hrsv, hop, hsrc⟩
  unfold decode at h
  rw [if_neg (not_not.mpr hrsv)] at h
  split at h
  · cases h
  next hne8 =>
  split at h
  · cases h
  next hneA =>
  split at h
  next hplain =>
    obtain hout | heq := (plainCommand_eq_none_iff _).mp hplain
    · exact hout hop
    · exact heq.elim hne8 hneA
  split at h
  next hset => exact (hsrc hset).elim hne8 hneA
  · cases h

/-- `legal` of R95 is what the decoder accepts. -/
theorem legal_iff_decodes (v : Word) : legal v = true ↔ ∃ i, decode v = .ok i := by
  refine ⟨fun hlegal => ?_, fun ⟨i, hi⟩ => decode_eq_ok_iff.mp hi ▸ legal_encode i⟩
  cases hd : decode v with
  | ok i => exact ⟨i, rfl⟩
  | error e => exact absurd hlegal (not_legal_of_decode_error hd)

theorem decode_error_iff_not_legal (v : Word) : (∃ e, decode v = .error e) ↔ ¬legal v = true := by
  refine ⟨fun ⟨_, he⟩ => not_legal_of_decode_error he, fun hillegal => ?_⟩
  cases hd : decode v with
  | ok i => exact absurd ((legal_iff_decodes v).mpr ⟨i, hd⟩) hillegal
  | error e => exact ⟨e, rfl⟩

theorem mask_all_eq_iff (v : Word) (i : Instr) : v &&& 0xFFFFFFFF#32 = encode i ↔ decode v = .ok i := by
  rw [decode_eq_ok_iff, show 0xFFFFFFFF#32 = BitVec.allOnes 32 from rfl, BitVec.and_allOnes]

/-- Bit 8 of a word alone is the SRC bit of the buffer it selects (R94). -/
theorem and_srcBit_obuf (v : Word) : v &&& srcBit .obuf = srcBit (srcOfBit (srcField v)) := by
  have hbit : v &&& srcBit .obuf = if srcField v then srcBit .obuf else 0#32 := BitVec.and_twoPow v 8
  rw [hbit]
  cases srcField v <;> rfl

/-- A match without SRC bit, of the mask that leaves SRC out, is of its two words. -/
theorem mask_src_eq_iff (v c : Word) (hc : c &&& 0xFFFFFEFF#32 = c) :
    v &&& 0xFFFFFEFF#32 = c ↔ ∃ src, v = c ||| srcBit src := by
  constructor
  · intro h
    refine ⟨srcOfBit (srcField v), ?_⟩
    calc v = v &&& (0xFFFFFEFF#32 ||| srcBit .obuf) := (BitVec.and_allOnes (x := v)).symm
      _ = c ||| srcBit (srcOfBit (srcField v)) := by rw [BitVec.and_or_distrib_left, h, and_srcBit_obuf]
  · rintro ⟨src, rfl⟩
    have hsrc : srcBit src &&& 0xFFFFFEFF#32 = 0#32 := by cases src <;> rfl
    rw [BitVec.and_or_distrib_right, hc, hsrc, BitVec.or_zero]

/-- Settles O2: the twelve words are those of the commands, and a mask leaves out SRC or nothing. -/
theorem legalWordsAreTheTwelve : Obligations.LegalWordsAreTheTwelve := by
  refine ⟨fun v => ?_, ⟨rfl, rfl, rfl, rfl⟩, fun v => ?_⟩
  · simp only [legal_iff_decodes, decode_eq_ok_iff]
    constructor
    · rintro ⟨i, rfl⟩
      cases i with
      | imgExtract src => cases src <;> decide
      | audExtract src => cases src <;> decide
      | _ => decide
    · simp only [List.mem_cons, List.not_mem_nil, or_false]
      rintro (rfl | rfl | rfl | rfl | rfl | rfl | rfl | rfl | rfl | rfl | rfl | rfl)
      exacts [⟨.frameEncode, rfl⟩, ⟨.frameDecode, rfl⟩, ⟨.imgCapacity, rfl⟩, ⟨.audCapacity, rfl⟩,
        ⟨.imgValidate, rfl⟩, ⟨.audValidate, rfl⟩, ⟨.imgEmbed, rfl⟩, ⟨.imgExtract .cbuf, rfl⟩,
        ⟨.imgExtract .obuf, rfl⟩, ⟨.audEmbed, rfl⟩, ⟨.audExtract .cbuf, rfl⟩, ⟨.audExtract .obuf, rfl⟩]
  · simp only [decode_eq_ok_iff (i := .imgExtract _), decode_eq_ok_iff (i := .audExtract _)]
    exact ⟨mask_all_eq_iff v .frameEncode, mask_all_eq_iff v .frameDecode, mask_all_eq_iff v .imgCapacity,
      mask_all_eq_iff v .audCapacity, mask_all_eq_iff v .imgValidate, mask_all_eq_iff v .audValidate,
      mask_all_eq_iff v .imgEmbed, mask_src_eq_iff v 0x00000008#32 rfl, mask_all_eq_iff v .audEmbed,
      mask_src_eq_iff v 0x0000000A#32 rfl⟩

/-- Settles O3: R96 is R95 denied clause by clause, and the completion of an illegal word reads no operand. -/
theorem illegalWordCompletes : Obligations.IllegalWordCompletes := by
  refine ⟨fun v => ?_, fun s ⟨e, he⟩ => completionStep_error he, rfl⟩
  rw [decode_error_iff_not_legal, legal_iff, srcField_iff, opField_eq, rsvField_eq]
  tauto

/-- Settles O4: closed words and spellings, evaluated. -/
theorem writtenWordsDecode : Obligations.WrittenWordsDecode := by
  unfold Obligations.WrittenWordsDecode
  decide

/-! ### The operands -/

/-- Settles O5: each field is an extract of its register, and H has no bits above it. -/
theorem operandsAreRegisterFields : Obligations.OperandsAreRegisterFields := by
  intro s
  have hdim := s.imgDim.isLt
  refine ⟨rfl, ?_, ?_, rfl, ?_, ?_, rfl, rfl, rfl⟩
  · simp [opW]
  · rw [opH, BitVec.extractLsb'_toNat, Nat.shiftRight_eq_div_pow]
    omega
  · simp [opCh]
  · rw [opSw, BitVec.extractLsb'_toNat, Nat.shiftRight_eq_div_pow]

end Sys2Proof.Proofs
end

section
/-! The BitFramer (40_framer.md): the bits of messages and frames (R110 to R112), where the terminator is found (R113),
what `deframe` makes of a bit sequence (R114, R119, R120), and FRAME_ENCODE and FRAME_DECODE (R116 to R118). -/

namespace Sys2Proof.Proofs

open Sys2Proof.Machine Sys2Proof.Laws

/-! ### Bits and bytes (R110 to R112) -/

theorem bitsOfByte_getElem? (b : Byte) {i : Nat} (hi : i < 8) : (bitsOfByte b)[i]? = some (b.getLsbD (7 - i)) := by
  interval_cases i <;> rfl

theorem bitsOf_getElem? (msg : List Byte) {j i : Nat} (hj : j < msg.length) (hi : i < 8) :
    (bitsOf msg)[8 * j + i]? = some (msg[j].getLsbD (7 - i)) := by
  induction msg generalizing j with
  | nil => simp at hj
  | cons b msg ih =>
    rw [bitsOf_cons]
    cases j with
    | zero =>
      rw [List.getElem?_append_left (by simpa using hi)]
      simpa using bitsOfByte_getElem? b hi
    | succ j =>
      rw [List.getElem?_append_right (by simp; omega), bitsOfByte_length,
        show 8 * (j + 1) + i - 8 = 8 * j + i by omega]
      exact ih (by simpa using hj)

theorem term_getElem? {i : Nat} (hi : i < 15) : term[i]? = some true :=
  (List.getElem?_append_left (by simpa using hi)).trans (List.getElem?_replicate_of_lt hi)

/-- Settles O23: a byte's bits stand in the message's bits, and TERM after them. -/
theorem frameIsMessageThenTerminator : Obligations.FrameIsMessageThenTerminator := by
  have term_at (msg : List Byte) (i : Nat) : (frame msg)[8 * msg.length + i]? = term[i]? := by
    rw [frame, ← bitsOf_length, List.getElem?_append_right (Nat.le_add_right ..), Nat.add_sub_cancel_left]
  refine fun msg => ⟨frame_length msg, fun j i hj hi => ?_, fun i hi => ?_, ?_⟩ <;> rw [List.getElem_eq_iff]
  · rw [frame, List.getElem?_append_left (by simp; omega)]
    exact bitsOf_getElem? msg hj hi
  · rw [term_at]
    exact term_getElem? hi
  · rw [term_at]
    rfl

theorem bitsOfByte_pack8 (s0 s1 s2 s3 s4 s5 s6 s7 : Bool) :
    bitsOfByte (pack8 s0 s1 s2 s3 s4 s5 s6 s7) = [s0, s1, s2, s3, s4, s5, s6, s7] := by
  revert s0 s1 s2 s3 s4 s5 s6 s7
  decide

/-- The packed bytes hold the bits of the whole runs of 8, in order. -/
theorem bitsOf_packBytes (s : List Bool) : bitsOf (packBytes s) = s.take (8 * (s.length / 8)) := by
  fun_induction packBytes s with
  | case1 s0 s1 s2 s3 s4 s5 s6 s7 rest ih =>
    have hlen :
        8 * ((s0 :: s1 :: s2 :: s3 :: s4 :: s5 :: s6 :: s7 :: rest).length / 8) = 8 * (rest.length / 8) + 8 := by
      simp only [List.length_cons]
      omega
    rw [bitsOf_cons, bitsOfByte_pack8, ih, hlen]
    rfl
  | case2 s hshort =>
    have hlen := packBytes_length s
    rw [packBytes.eq_2 s hshort, List.length_nil] at hlen
    rw [← hlen]
    rfl

theorem packBytes_getElem {s : List Bool} {j i : Nat} (hj : j < (packBytes s).length) (hi : i < 8)
    (hs : 8 * j + i < s.length) : (packBytes s)[j].getLsbD (7 - i) = s[8 * j + i] := by
  have hbit := bitsOf_getElem? (packBytes s) hj hi
  rw [packBytes_length] at hj
  rw [bitsOf_packBytes, List.getElem?_take_of_lt (by omega), List.getElem?_eq_getElem hs] at hbit
  exact (Option.some.inj hbit).symm

/-! ### Where the terminator is found (R113) -/

/-- TERM stands nowhere before the index found, nor anywhere when none is found. -/
theorem take_drop_ne_term_of_lt {s : List Bool} {j : Nat} (hj : j < (findTerm s).getD s.length) :
    (s.drop j).take 16 ≠ term := by
  induction s generalizing j with
  | nil => simp [findTerm] at hj
  | cons b s ih =>
    simp only [findTerm] at hj
    split_ifs at hj with hprefix
    · simp at hj
    · cases j with
      | zero =>
        intro h
        exact hprefix (List.isPrefixOf_iff_prefix.2 (List.prefix_iff_eq_take.2 h.symm))
      | succ j =>
        refine ih ?_
        cases hf : findTerm s with
        | none => simpa [hf] using hj
        | some p => simpa [hf] using hj

theorem findTerm_eq_some_iff {s : List Bool} {p : Nat} :
    findTerm s = some p ↔
      p + 16 ≤ s.length ∧ (s.drop p).take 16 = term ∧ ∀ j, j < p → (s.drop j).take 16 ≠ term := by
  constructor
  · intro h
    obtain ⟨hbound, hterm⟩ := findTerm_bound h
    exact ⟨hbound, hterm, fun j hj => take_drop_ne_term_of_lt (by simpa [h] using hj)⟩
  · rintro ⟨hbound, hterm, hleast⟩
    have hle : (findTerm s).getD s.length ≤ p := Nat.le_of_not_lt fun hlt => take_drop_ne_term_of_lt hlt hterm
    cases hf : findTerm s with
    | none =>
      simp only [hf, Option.getD_none] at hle
      omega
    | some q =>
      simp only [hf, Option.getD_some] at hle
      obtain hlt | rfl := hle.lt_or_eq
      · exact absurd (findTerm_bound hf).2 (hleast q hlt)
      · rfl

theorem findTerm_eq_none_iff {s : List Bool} :
    findTerm s = none ↔ ∀ i, i + 16 ≤ s.length → (s.drop i).take 16 ≠ term := by
  constructor
  · intro h i hi
    exact take_drop_ne_term_of_lt (by simp only [h, Option.getD_none]; omega)
  · intro h
    cases hf : findTerm s with
    | none => rfl
    | some p => exact absurd (findTerm_bound hf).2 (h p (findTerm_bound hf).1)

/-- Settles O24: TERM of R111 is the sixteen bits that the statement writes. -/
theorem findTermIsLeastMatch : Obligations.FindTermIsLeastMatch :=
  fun _ => ⟨fun _ => findTerm_eq_some_iff, findTerm_eq_none_iff⟩

/-- A match that lies wholly in the first part of a sequence is found there, whatever follows. -/
theorem findTerm_append_eq_some_iff {a : List Bool} (x : List Bool) {p : Nat} (hp : p + 16 ≤ a.length) :
    findTerm (a ++ x) = some p ↔ findTerm a = some p := by
  have hwindow {j : Nat} (hj : j ≤ p) : ((a ++ x).drop j).take 16 = (a.drop j).take 16 := by
    rw [List.drop_append_of_le_length (by omega), List.take_append_of_le_length (by simp; omega)]
  have hlen : p + 16 ≤ (a ++ x).length := by simp; omega
  simp +contextual only [findTerm_eq_some_iff, hp, hlen, hwindow, le_refl, Nat.le_of_lt]

/-- TERM cannot begin in a sequence and end in the TERM after it: only its last bit is 0. -/
theorem term_prefix_of_prefix_append {s x : List Bool} (hs : s ≠ []) (h : term <+: s ++ term ++ x) : term <+: s := by
  by_cases hlen : 16 ≤ s.length
  · exact List.prefix_of_prefix_length_le h ((List.prefix_append ..).trans (List.prefix_append ..)) hlen
  · have hpos : 0 < s.length := List.length_pos_iff.2 hs
    have hlast : (s ++ term ++ x)[15]? = some true := by
      rw [List.getElem?_append_left (by simp), List.getElem?_append_right (by omega)]
      exact term_getElem? (by omega)
    have hzero : (s ++ term ++ x)[15]? = some false := by
      obtain ⟨r, hr⟩ := h
      rw [← hr]
      rfl
    exact absurd (hlast.symm.trans hzero) (by decide)

/-- Before an appended TERM, the first match is the sequence's own, or else the appended one. -/
theorem findTerm_append_term (s x : List Bool) : findTerm (s ++ term ++ x) = some ((findTerm s).getD s.length) := by
  induction s with
  | nil => rfl
  | cons b s ih =>
    have hprefix : term.isPrefixOf (b :: (s ++ term ++ x)) = term.isPrefixOf (b :: s) := by
      rw [Bool.eq_iff_iff, List.isPrefixOf_iff_prefix, List.isPrefixOf_iff_prefix]
      exact ⟨term_prefix_of_prefix_append (List.cons_ne_nil b s),
        fun h => h.trans ((List.prefix_append ..).trans (List.prefix_append ..))⟩
    simp only [List.cons_append, findTerm, hprefix, ih]
    split_ifs
    · rfl
    · cases findTerm s <;> rfl

/-! ### Deframing (R114, R119, R120) -/

/-- The payload is what stands before the first match, or everything, and the bytes are its whole runs of 8. -/
theorem deframe_eq (s : List Bool) :
    deframe s =
      { out := packBytes (s.take ((findTerm s).getD s.length))
        found := (findTerm s).isSome
        payload := (findTerm s).getD s.length } := by
  unfold deframe
  cases findTerm s with
  | none => simp
  | some p => rfl

/-- Settles O25: the bytes are packed from the payload's bits. -/
theorem deframePacksThePayload : Obligations.DeframePacksThePayload := by
  intro s
  refine ⟨by rw [deframe_eq], by rw [deframe_eq], deframe_out_length s, deframe_payload_le s, fun j i hj hi => ?_⟩
  have hle := deframe_payload_le s
  simp only [deframe_eq] at hj hle ⊢
  rw [packBytes_getElem _ hi (by simp; omega), List.getElem_take]

/-- Settles O26: the payload of a frame is the message's bits before their own first match, or all of them. -/
theorem deframeOfFrame : Obligations.DeframeOfFrame := by
  intro msg x
  have hle : (findTerm (bitsOf msg)).getD (8 * msg.length) ≤ 8 * msg.length := by
    have h := deframe_payload_le (bitsOf msg)
    rwa [deframe_eq, bitsOf_length] at h
  have hdeframe : deframe (frame msg ++ x) =
      { out := msg.take ((findTerm (bitsOf msg)).getD (8 * msg.length) / 8)
        found := true
        payload := (findTerm (bitsOf msg)).getD (8 * msg.length) } := by
    rw [deframe_eq, frame, findTerm_append_term, bitsOf_length, List.append_assoc, Option.getD_some,
      List.take_append_of_le_length (by simpa using hle), packBytes_take_bitsOf msg _ hle]
    rfl
  refine ⟨hdeframe, ?_⟩
  rw [hdeframe, List.take_eq_self_iff]
  cases hf : findTerm (bitsOf msg) with
  | none => simp
  | some p =>
    have hbound := (findTerm_bound hf).1
    rw [bitsOf_length] at hbound
    simp only [Option.getD_some, reduceCtorEq, iff_false]
    omega

/-- Once TERM is found, no bit after it matters. -/
theorem deframe_take_append {s : List Bool} {p : Nat} (hf : findTerm s = some p) (x : List Bool) :
    deframe (s.take (p + 16) ++ x) = deframe s := by
  have hbound := (findTerm_bound hf).1
  have hlen : p + 16 ≤ (s.take (p + 16)).length := by simp [hbound]
  have hsame : findTerm (s.take (p + 16) ++ x) = some p := by
    rw [findTerm_append_eq_some_iff x hlen, ← findTerm_append_eq_some_iff (s.drop (p + 16)) hlen,
      List.take_append_drop, hf]
  have htake : (s.take (p + 16) ++ x).take p = s.take p := by
    rw [List.take_append_of_le_length (by omega), List.take_take, Nat.min_eq_left (Nat.le_add_right ..)]
  simp only [deframe_eq, hsame, hf, Option.getD_some, htake]

/-- Settles O27: the bounds by whether the terminator is found. -/
theorem deframeBounds : Obligations.DeframeBounds := by
  intro s
  have hle := deframe_payload_le s
  refine ⟨hle, deframe_out_length s, Nat.div_le_div_right hle, ?_⟩
  cases hf : findTerm s with
  | none => simp [deframe_eq, hf]
  | some p =>
    have hpayload : (deframe s).payload = p := by rw [deframe_eq, hf]; rfl
    have hfound : (deframe s).found = true := by rw [deframe_eq, hf]; rfl
    obtain ⟨hbound, hterm⟩ := findTerm_bound hf
    rw [hpayload, hfound]
    exact ⟨nofun, fun _ => ⟨hbound, hterm, deframe_take_append hf⟩⟩

/-! ### FRAME_ENCODE and FRAME_DECODE (R116 to R118) -/

/-- A command that raises RANGE records nothing beside STATUS and ERR_INFO (R195). -/
theorem exec_of_range {i : Instr} {s : State} (h : effect i s = .error .range) :
    exec i s = .next { s with err := .range, errInfo := 0, done := true, phase := .idle } :=
  exec_next_iff.2 (.inr ⟨_, h, rfl⟩)

theorem exec_of_ok {i : Instr} {s u : State} (h : effect i s = .ok u) : exec i s = .next (completeOk u) :=
  exec_next_iff.2 (.inl ⟨_, h, rfl⟩)

/-- The frame of a message, packed, is the message's bytes and the terminator's two. -/
theorem packBytes_frame (msg : List Byte) : packBytes (frame msg) = msg ++ [0xFF#8, 0xFE#8] :=
  packBytes_bitsOf_append msg term

/-- Byte k of a stored frame. -/
theorem byte_storeFrame (s : State) {b : Byte} {k : Nat}
    (hb : (message s ++ [0xFF#8, 0xFE#8])[k]? = some b) :
    (s.storeBytes (bufBase .bbuf) (packBytes (frame (message s)))).byte (bufBase .bbuf + k) = b := by
  rw [← packBytes_frame] at hb
  obtain ⟨hk, rfl⟩ := List.getElem?_eq_some_iff.1 hb
  exact byte_storeBytes_in s _ _ hk

/-- Settles O10: the frame is the message's bytes, 0xFF and 0xFE, and a legal part's BIT_LEN can count its bits. -/
theorem frameEncodeRule : Obligations.FrameEncodeRule := by
  refine ⟨decode_encode .frameEncode, fun s hw => ⟨fun hrange => exec_of_range (if_pos hrange), fun hm hb => ?_⟩⟩
  obtain ⟨-, ⟨-, hmbuf⟩, -, -⟩ := cfg_wf_iff.1 hw
  refine ⟨_, exec_of_ok (frameEncodeEffect_ok_iff.2 ⟨⟨hm, hb⟩, rfl⟩), rfl, Nat.mod_eq_of_lt (by omega),
    fun j hj => byte_storeFrame s ?_, byte_storeFrame s ?_, byte_storeFrame s ?_,
    fun a ha => byte_storeBytes_out s _ _ (packedFrame_length s ▸ ha)⟩
  · rw [List.getElem?_append_left (by simpa using hj), List.getElem?_eq_getElem (by simpa using hj)]
    simp [message]
  · rw [List.getElem?_append_right (by simp)]
    simp
  · rw [List.getElem?_append_right (by simp)]
    simp

/-- Settles O11: a legal part's registers can count the bits of BBUF, so the decode is that of R115. -/
theorem frameDecodeRule : Obligations.FrameDecodeRule := by
  refine ⟨decode_encode .frameDecode, fun s _ => ⟨fun hrange => exec_of_range (if_pos hrange), fun hfit => ?_⟩⟩
  have hcount : (bbufBits s (opBits s)).length < 2 ^ 32 := by
    rw [bbufBits_length]
    exact s.bitLen.isLt
  exact ⟨_, _, exec_of_ok (frameDecodeEffect_ok_iff.2 ⟨hfit, rfl⟩), emitDecoded_spec hcount, bbufBits_length ..,
    fun i hi => by simp [bbufBits, bbit]⟩

end Sys2Proof.Proofs
end

section
/-! The CapacityValidator (41_capacity.md): the counts its commands write are exact (R130), and each pair of commands,
image and audio, is one rule over the capacity it takes (R131 to R134). -/

namespace Sys2Proof.Proofs

open Sys2Proof.Machine Sys2Proof.Laws

/-! ### The counts (R130, R135) -/

/-- A count below 2^36 is held exactly by a 64-bit register: no wrap-around. -/
theorem toNat_count {n : Nat} (h : n < 2 ^ 36) : (BitVec.ofNat 64 n).toNat = n :=
  Nat.mod_eq_of_lt (h.trans (by decide))

theorem imgUnits_count (s : State) : imgUnits s < 2 ^ 36 := (imgUnits_lt s).trans (by decide)

theorem capAud_count (s : State) : capAud (opN s) < 2 ^ 36 := (opN_lt s).trans (by decide)

/-- Settles O32: 8L ≤ c - 16 is L ≤ (c - 16) div 8, and below 16 the subtraction hides that nothing fits. -/
theorem capacityBoundary : Obligations.CapacityBoundary := by
  intro len c
  rw [Nat.le_div_iff_mul_le (by decide), required]
  omega

/-! ### IMG_CAPACITY and AUD_CAPACITY (R131, R132) -/

theorem exec_of_setAvail {i : Instr} {s : State} {avail : Nat} (h : effect i s = .ok (setAvail avail s))
    (havail : avail < 2 ^ 36) :
    ∃ t, exec i s = .next t
      ∧ t = { s with availBits := t.availBits, err := .ok, errInfo := 0, done := true, phase := .idle }
      ∧ t.availBits.toNat = avail :=
  ⟨_, exec_of_ok h, rfl, toNat_count havail⟩

/-- Settles O12: both commands are `exec_of_setAvail`, for their capacities. -/
theorem capacityRules : Obligations.CapacityRules :=
  ⟨decode_encode .imgCapacity, decode_encode .audCapacity, fun s =>
    ⟨exec_of_setAvail rfl (imgUnits_count s), exec_of_setAvail rfl (capAud_count s)⟩⟩

/-! ### IMG_VALIDATE and AUD_VALIDATE (R133, R134) -/

/-- A command that raises CAPACITY records its two counts, beside STATUS and ERR_INFO (R195). -/
theorem exec_of_capacity {i : Instr} {s : State} {req avail : Nat} (h : effect i s = .error (.capacity req avail)) :
    exec i s = .next { setReqAvail req avail s with err := .capacity, errInfo := 0, done := true, phase := .idle } :=
  exec_next_iff.2 (.inr ⟨_, h, rfl⟩)

theorem validateEffect_of_lt {avail : Nat} {s : State} (h : avail < required (opL s)) :
    validateEffect avail s = .error (.capacity (required (opL s)) avail) :=
  if_pos h

/-- The two counts are the same on both outcomes, committed with OK or recorded by CAPACITY (R195). -/
theorem exec_of_validateEffect {i : Instr} {s : State} {avail : Nat} (h : effect i s = validateEffect avail s) :
    exec i s = .next { setReqAvail (required (opL s)) avail s with
      err := if required (opL s) ≤ avail then .ok else .capacity
      errInfo := 0, done := true, phase := .idle } := by
  by_cases hfit : required (opL s) ≤ avail
  · rw [if_pos hfit]
    exact exec_of_ok (h.trans (validateEffect_ok_iff.2 ⟨hfit, rfl⟩))
  · rw [if_neg hfit]
    exact exec_of_capacity (h.trans (validateEffect_of_lt (Nat.lt_of_not_le hfit)))

/-- Settles O13: both commands are `exec_of_validateEffect`, for their capacities, and no count wraps around. -/
theorem validateRules : Obligations.ValidateRules :=
  ⟨decode_encode .imgValidate, decode_encode .audValidate, fun s =>
    ⟨⟨_, exec_of_validateEffect rfl, rfl, toNat_count (required_opL_lt s), toNat_count (imgUnits_count s)⟩,
      ⟨_, exec_of_validateEffect rfl, rfl, toNat_count (required_opL_lt s), toNat_count (capAud_count s)⟩⟩⟩

end Sys2Proof.Proofs
end

section
/-! The ImageCodec (42_image.md): what LSB substitution does to a byte (R150), the carrier that IMG_EMBED leaves in
OBUF (R151, R152), IMG_EXTRACT (R156), and the round trip of a message through a carrier (R157). -/

namespace Sys2Proof.Proofs

open Sys2Proof.Machine Sys2Proof.Laws

/-! ### LSB substitution (R150, R152) -/

theorem setLsb8_toNat_div_two (v : Byte) (b : Bool) : (setLsb v b).toNat / 2 = v.toNat / 2 := by
  have h : setLsb v b >>> 1 = v >>> 1 := BitVec.eq_of_getLsbD_eq fun i _ => by simp [setLsb8_getLsbD]
  simpa [Nat.shiftRight_one] using congrArg BitVec.toNat h

/-- The laws of R152 for one unit `o` of OBUF, against the carrier's unit `c`. -/
theorem embeddedUnit_laws {c o : Byte} {bits : List Bool} {k : Nat}
    (ho : o = if h : k < bits.length then setLsb c bits[k] else c) :
    (∀ i, 1 ≤ i → o.getLsbD i = c.getLsbD i) ∧ (∀ h : k < bits.length, o.getLsbD 0 = bits[k])
      ∧ (bits.length ≤ k → o = c) ∧ o.toNat ≤ c.toNat + 1 ∧ c.toNat ≤ o.toNat + 1 := by
  by_cases hk : k < bits.length
  · rw [dif_pos hk] at ho
    have hhalf : o.toNat / 2 = c.toNat / 2 := ho ▸ setLsb8_toNat_div_two c bits[k]
    refine ⟨fun i hi => ?_, fun _ => ?_, fun hle => absurd hk (by omega), by omega, by omega⟩
    · rw [ho, setLsb8_getLsbD, if_neg (by omega)]
    · rw [ho, setLsb8_getLsbD, if_pos rfl]
  · rw [dif_neg hk] at ho
    subst ho
    exact ⟨fun _ _ => rfl, fun h => absurd h hk, fun _ => rfl, by omega, by omega⟩

/-- The carrier of IMG_EMBED in OBUF, unit by unit (R151). -/
theorem byte_storeEmbedded (s : State) {n k : Nat} (hk : k < n) (bits : List Bool) :
    (s.storeBytes (bufBase .obuf) (embedUnits (s.bytes (bufBase .cbuf) n) bits)).byte (bufBase .obuf + k) =
      if h : k < bits.length then setLsb (s.byte (bufBase .cbuf + k)) bits[k] else s.byte (bufBase .cbuf + k) := by
  rw [byte_storeBytes_in s _ _ (by simpa using hk), embedUnits_getElem _ _ k (by simpa using hk)]
  simp only [bytes_getElem]

/-! ### IMG_EMBED and IMG_EXTRACT (R151, R152, R156) -/

theorem imgEmbedEffect_of_lt {s : State} (hm : opL s ≤ s.cfg.nMbuf) (hc : imgUnits s ≤ s.cfg.nCbuf)
    (h : imgUnits s < required (opL s)) :
    imgEmbedEffect s = .error (.capacity (required (opL s)) (imgUnits s)) := by
  rw [imgEmbedEffect, if_neg (by omega), if_pos h]

/-- Settles O14: the frame has 8L + 16 bits, and each unit of OBUF obeys `embeddedUnit_laws`. -/
theorem imgEmbedRule : Obligations.ImgEmbedRule := by
  refine ⟨decode_encode .imgEmbed, fun s _ => ⟨fun hrange => exec_of_range (if_pos hrange), fun hm hc hlt => ?_,
    fun hm hc hfit => ?_⟩⟩
  · exact ⟨_, exec_of_capacity (imgEmbedEffect_of_lt hm hc hlt), rfl, toNat_count (required_opL_lt s),
      toNat_count (imgUnits_count s)⟩
  · have hframe : (frame (message s)).length = 8 * opL s + 16 := by simp
    exact ⟨_, exec_of_ok (imgEmbedEffect_ok_iff.2 ⟨⟨hm, hc, hfit⟩, rfl⟩), rfl, toNat_count (required_opL_lt s),
      toNat_count (imgUnits_count s), fun k hk => hframe ▸ embeddedUnit_laws (byte_storeEmbedded s hk _),
      fun a ha => byte_storeBytes_out s _ _ (by rwa [embedUnits_length, bytes_length])⟩

/-- A carrier that fits CBUF has few enough units for the registers of a legal part, so an IMG_EXTRACT of it is the
decode of R115. -/
theorem exec_imgExtract_decoded (src : Src) {s : State} (hw : s.cfg.wf = true) (hfit : imgUnits s ≤ s.cfg.nCbuf) :
    ∃ t, exec (.imgExtract src) s = .next t ∧ Decoded s t (lsbImg s (opBase src) (imgUnits s)) := by
  obtain ⟨⟨-, hcbuf⟩, -⟩ := cfg_wf_iff.1 hw
  have hcount : (lsbImg s (opBase src) (imgUnits s)).length < 2 ^ 32 := by
    rw [lsbImg_length]
    omega
  exact ⟨_, exec_of_ok (imgExtractEffect_ok_iff.2 ⟨hfit, rfl⟩), emitDecoded_spec hcount⟩

/-- Settles O15: the bits decoded are those of `lsbImg` (R154). -/
theorem imgExtractRule : Obligations.ImgExtractRule := by
  refine ⟨decode_encode (.imgExtract .cbuf), decode_encode (.imgExtract .obuf), fun src s hw =>
    ⟨fun hrange => exec_of_range (if_pos hrange), fun hfit => ?_⟩⟩
  obtain ⟨t, ht, hdecoded⟩ := exec_imgExtract_decoded src hw hfit
  exact ⟨t, _, ht, hdecoded, lsbImg_length .., fun k hk => by simp [lsbImg]⟩

/-! ### The round trip (R157) -/

/-- A command that leaves OK raised no error (R190). -/
theorem effect_of_exec_ok {i : Instr} {s t : State} (ht : exec i s = .next t) (hok : t.err = .ok) :
    ∃ u, effect i s = .ok u ∧ t = completeOk u := by
  obtain h | ⟨e, -, rfl⟩ := exec_next_iff.1 ht
  · exact h
  · rw [raiseError_err] at hok
    cases e <;> cases hok

/-- The payload of a message's frame ends with the message, or before its end when the message's bits contain TERM. -/
theorem framePayload_bounds (msg : List Byte) :
    (findTerm (bitsOf msg)).getD (8 * msg.length) ≤ 8 * msg.length
      ∧ (findTerm (bitsOf msg) ≠ none → (findTerm (bitsOf msg)).getD (8 * msg.length) < 8 * msg.length) := by
  cases hf : findTerm (bitsOf msg) with
  | none => simp
  | some p =>
    have hbound := (findTerm_bound hf).1
    rw [bitsOf_length] at hbound
    simp only [Option.getD_some]
    omega

/-- A decode of a message's frame, whatever follows it, gives the message up to its own first TERM (R119): what both
round trips come to (R157, R177). -/
theorem decoded_frame {s u r : State} {x : List Bool} (h : Decoded u r (frame (message s) ++ x)) :
    r.err = .ok ∧ termFound r = true
      ∧ r.payloadBits.toNat = (findTerm (bitsOf (message s))).getD (8 * opL s)
      ∧ r.outLen.toNat = r.payloadBits.toNat / 8
      ∧ (∀ j, j < r.payloadBits.toNat / 8 → r.byte (bufBase .tbuf + j) = s.byte (bufBase .mbuf + j))
      ∧ (findTerm (bitsOf (message s)) = none →
        r.outLen.toNat = opL s ∧ ∀ j, j < opL s → r.byte (bufBase .tbuf + j) = s.byte (bufBase .mbuf + j))
      ∧ (findTerm (bitsOf (message s)) ≠ none → r.payloadBits.toNat < 8 * opL s) := by
  obtain ⟨hregs, hout, hpayload, hfound, -, -, hbytes, -⟩ := h
  obtain ⟨hle, hlt⟩ := framePayload_bounds (message s)
  have hdeframe := (deframeOfFrame (message s) x).1
  rw [message_length] at hle hlt hdeframe
  have hp : r.payloadBits.toNat = (findTerm (bitsOf (message s))).getD (8 * opL s) := by rw [hpayload, hdeframe]
  rw [deframe_out_length, ← hpayload] at hout
  rw [← hp] at hle hlt hdeframe
  rw [hdeframe] at hfound hbytes
  have hmsg (j : Nat) (hj : j < r.payloadBits.toNat / 8) :
      r.byte (bufBase .tbuf + j) = s.byte (bufBase .mbuf + j) := by
    rw [hbytes j (by simp; omega)]
    simp [message]
  refine ⟨congrArg State.err hregs, hfound, hp, hout, hmsg, fun hnone => ?_, hlt⟩
  have hall : r.payloadBits.toNat / 8 = opL s := by
    rw [hp, hnone, Option.getD_none]
    omega
  exact hall ▸ ⟨hout, hmsg⟩

theorem imgUnits_congr {s u : State} (h : u.imgDim = s.imgDim) : imgUnits u = imgUnits s := by
  simp only [imgUnits, opW, opH, h]

/-- The LSBs of a carrier that bits were embedded in begin with those bits (R154). -/
theorem prefix_lsbImg_of_embedded {s u : State} {n : Nat} {bits : List Bool} (hfit : bits.length ≤ n)
    (hcarrier : ∀ k, k < n → u.byte (bufBase .obuf + k) =
      (s.storeBytes (bufBase .obuf) (embedUnits (s.bytes (bufBase .cbuf) n) bits)).byte (bufBase .obuf + k)) :
    bits <+: lsbImg u (bufBase .obuf) n := by
  refine List.prefix_iff_getElem?.2 fun k hk => ?_
  have hkn : k < n := Nat.lt_of_lt_of_le hk hfit
  obtain ⟨-, hbit, -⟩ := embeddedUnit_laws (byte_storeEmbedded s hkn bits)
  rw [lsbImg_getElem? u _ hkn, hcarrier k hkn, hbit hk]

/-- Settles O28: the LSBs that IMG_EXTRACT reads begin with the frame that IMG_EMBED embedded. -/
theorem imageRoundTrip : Obligations.ImageRoundTrip := by
  intro s t u hw ht hok hcfg hdim hcarrier
  obtain ⟨v, hv, rfl⟩ := effect_of_exec_ok ht hok
  obtain ⟨⟨-, hc, hfit⟩, rfl⟩ := imgEmbedEffect_ok_iff.1 hv
  have hunits : imgUnits u = imgUnits s := imgUnits_congr hdim
  obtain ⟨x, hx⟩ : frame (message s) <+: lsbImg u (bufBase .obuf) (imgUnits s) :=
    prefix_lsbImg_of_embedded (by simpa [required] using hfit) hcarrier
  obtain ⟨r, hr, hdecoded⟩ := exec_imgExtract_decoded .obuf (s := u) (by rwa [hcfg]) (by rwa [hunits, hcfg])
  rw [hunits, opBase, ← hx] at hdecoded
  exact ⟨r, hr, decoded_frame hdecoded⟩

end Sys2Proof.Proofs
end

section
/-! The AudioCodec (43_audio.md): LSB substitution on signed samples (R170), the samples that AUD_EMBED leaves in OBUF
(R171 to R174), what AUD_EXTRACT reads and gives (R175, R176), and the round trip of a message (R177). -/

namespace Sys2Proof.Proofs

open Sys2Proof.Machine Sys2Proof.Laws

/-! ### LSB substitution on samples (R170, R173) -/

theorem setLsb16_toNat (v : BitVec 16) (b : Bool) : (setLsb v b).toNat = 2 * (v.toNat / 2) + b.toNat := by
  have hshift : setLsb v b >>> 1 = v >>> 1 := BitVec.eq_of_getLsbD_eq fun i _ => by simp [setLsb16_getLsbD]
  have hhalf : (setLsb v b).toNat / 2 = v.toNat / 2 := by
    simpa [Nat.shiftRight_one] using congrArg BitVec.toNat hshift
  have hbit : b.toNat = (setLsb v b).toNat / 2 ^ 0 % 2 := by
    rw [← Nat.toNat_testBit, BitVec.testBit_toNat, setLsb16_getLsbD, if_pos rfl]
  omega

theorem setLsb16_toInt (v : BitVec 16) (b : Bool) : (setLsb v b).toInt = 2 * (v.toInt / 2) + b.toNat := by
  have hb := b.toNat_le
  rw [BitVec.toInt_eq_toNat_cond, BitVec.toInt_eq_toNat_cond, setLsb16_toNat]
  split_ifs <;> omega

/-- Settles O30: `setLsb16_toInt` bounds the value, and `setLsb16_getLsbD` gives the bits. -/
theorem signedLsbSubstitution : Obligations.SignedLsbSubstitution := by
  intro v b
  have hvalue := setLsb16_toInt v b
  have hb := b.toNat_le
  refine ⟨?_, by omega, by omega, by omega, by rw [setLsb16_getLsbD, if_pos rfl], fun n hn => ?_⟩
  · cases b <;> exact hvalue
  · rw [setLsb16_getLsbD, if_neg (by omega)]

/-- The laws of R173 for one sample `o` of OBUF, against the carrier's sample `c`. -/
theorem embeddedSample_laws {c o : BitVec 16} {bits : List Bool} {i : Nat}
    (ho : o = if h : i < bits.length then setLsb c bits[i] else c) :
    (∀ n, 1 ≤ n → o.getLsbD n = c.getLsbD n) ∧ (∀ h : i < bits.length, o.getLsbD 0 = bits[i])
      ∧ (bits.length ≤ i → o = c) := by
  by_cases hi : i < bits.length
  · rw [dif_pos hi] at ho
    subst ho
    refine ⟨fun n hn => ?_, fun _ => ?_, fun hle => absurd hi (by omega)⟩
    · rw [setLsb16_getLsbD, if_neg (by omega)]
    · rw [setLsb16_getLsbD, if_pos rfl]
  · rw [dif_neg hi] at ho
    exact ⟨fun _ _ => by rw [ho], fun h => absurd h hi, fun _ => ho⟩

/-! ### Samples in a buffer (R69, R171) -/

/-- Samples stored in a buffer are read back from it. -/
theorem audSample_storeSamples (s : State) (base : Nat) (es : List (BitVec 16)) {i : Nat} (hi : i < es.length) :
    audSample (s.storeBytes base (sampleBytes es)) base i = es[i] := by
  apply BitVec.eq_of_toNat_eq
  rw [audSample_toNat, Nat.add_assoc, byte_storeBytes_in s _ _ (by simp; omega),
    byte_storeBytes_in s _ _ (by simp; omega), sampleBytes_getElem_low es i hi, sampleBytes_getElem_high es i hi]
  have hlt := es[i].isLt
  simp only [BitVec.toNat_ofNat]
  omega

theorem audSample_congr {s t : State} (h : ∀ a, t.byte a = s.byte a) (base i : Nat) :
    audSample t base i = audSample s base i :=
  BitVec.eq_of_toNat_eq (by simp only [audSample_toNat, h])

/-- `s` with the carrier that AUD_EMBED stores in OBUF (R171). -/
def withAudCarrier (s : State) : State :=
  s.storeBytes (bufBase .obuf)
    (sampleBytes (embedUnits (audSamples s (bufBase .cbuf) (opN s)) (frame (message s))))

/-- That carrier, sample by sample (R171). -/
theorem audSample_withAudCarrier (s : State) {i : Nat} (hi : i < opN s) :
    audSample (withAudCarrier s) (bufBase .obuf) i =
      if h : i < (frame (message s)).length then setLsb (audSample s (bufBase .cbuf) i) (frame (message s))[i]
      else audSample s (bufBase .cbuf) i := by
  rw [withAudCarrier, audSample_storeSamples s _ _ (by simpa using hi), embedUnits_getElem _ _ i (by simpa using hi)]
  simp only [audSamples_getElem]

theorem withAudCarrier_unchangedOutside (s : State) :
    unchangedOutside s (withAudCarrier s) (bufBase .obuf) (2 * opN s) :=
  fun _ ha => byte_storeBytes_out s _ _ (by rwa [sampleBytes_length, embedUnits_length, audSamples_length])

/-- A sample's bit 0 is that of its low byte (R175). -/
theorem audSample_getLsbD_zero (s : State) (base i : Nat) :
    (audSample s base i).getLsbD 0 = (s.byte (base + 2 * i)).getLsbD 0 := by
  rw [BitVec.getLsbD, BitVec.getLsbD, audSample_toNat, Nat.testBit_zero, Nat.testBit_zero]
  congr 2
  omega

theorem lsbAud_getElem? (s : State) (base : Nat) {n i : Nat} (hi : i < n) :
    (lsbAud s base n)[i]? = some ((s.byte (base + 2 * i)).getLsbD 0) := by
  simp [lsbAud, hi]

/-! ### The errors (R192, R196) -/

/-- The format of R192, field by field. -/
theorem audioFormatOk_iff {s : State} : audioFormatOk s = true ↔ (opCh s).toNat = 1 ∧ (opSw s).toNat = 2 := by
  simp [audioFormatOk, ← BitVec.toNat_inj]

/-- A command that raises UNSUPPORTED_FORMAT records the format it was given in ERR_INFO (R48, R195). -/
theorem exec_of_format {i : Instr} {s : State} (h : effect i s = .error (.unsupportedFormat (opCh s) (opSw s))) :
    ∃ t, exec i s = .next t
      ∧ t = { s with err := .unsupportedFormat, errInfo := t.errInfo, done := true, phase := .idle }
      ∧ t.errInfo.toNat = (opSw s).toNat * 2 ^ 8 + (opCh s).toNat :=
  ⟨_, exec_next_iff.2 (.inr ⟨_, h, rfl⟩), rfl, errorInfo_unsupportedFormat_toNat ..⟩

theorem audEmbedEffect_of_format {s : State} (hf : ¬audioFormatOk s = true) :
    audEmbedEffect s = .error (.unsupportedFormat (opCh s) (opSw s)) :=
  if_pos (Bool.eq_false_of_not_eq_true hf)

theorem audEmbedEffect_of_range {s : State} (hf : audioFormatOk s = true)
    (h : s.cfg.nMbuf < opL s ∨ s.cfg.nCbuf < 2 * opN s) : audEmbedEffect s = .error .range := by
  rw [audEmbedEffect, if_neg (by simp [hf]), if_pos h]

theorem audEmbedEffect_of_lt {s : State} (hf : audioFormatOk s = true) (hm : opL s ≤ s.cfg.nMbuf)
    (hc : 2 * opN s ≤ s.cfg.nCbuf) (h : capAud (opN s) < required (opL s)) :
    audEmbedEffect s = .error (.capacity (required (opL s)) (opN s)) := by
  rw [audEmbedEffect, if_neg (by simp [hf]), if_neg (by omega), if_pos h]

theorem audExtractEffect_of_format {src : Src} {s : State} (hf : ¬audioFormatOk s = true) :
    audExtractEffect src s = .error (.unsupportedFormat (opCh s) (opSw s)) :=
  if_pos (Bool.eq_false_of_not_eq_true hf)

theorem audExtractEffect_of_range {src : Src} {s : State} (hf : audioFormatOk s = true)
    (h : s.cfg.nCbuf < 2 * opN s) : audExtractEffect src s = .error .range := by
  rw [audExtractEffect, if_neg (by simp [hf]), if_pos h]

/-! ### AUD_EMBED and AUD_EXTRACT (R171, R173, R174, R176) -/

/-- What an AUD_EMBED that raises no error leaves (R171, R174). -/
theorem exec_audEmbed_ok {s : State} (hf : audioFormatOk s = true) (hm : opL s ≤ s.cfg.nMbuf)
    (hc : 2 * opN s ≤ s.cfg.nCbuf) (hfit : required (opL s) ≤ capAud (opN s)) :
    ∃ t, exec .audEmbed s = .next t
      ∧ t = { s with
          mem := t.mem, reqBits := t.reqBits, availBits := t.availBits
          outAudFmt := s.audFmt, outAudRate := s.audRate, outAudNsamp := s.audNsamp
          err := .ok, errInfo := 0, done := true, phase := .idle }
      ∧ t.reqBits.toNat = required (opL s) ∧ t.availBits.toNat = opN s
      ∧ ∀ a, t.byte a = (withAudCarrier s).byte a := by
  refine ⟨_, exec_of_ok (audEmbedEffect_ok_iff.2 ⟨⟨hf, hm, hc, hfit⟩, rfl⟩), ?_, ?_, ?_, byte_congr ?_ ?_⟩
  · simp only [completeOk, finish, echoStream, setReqAvail, State.storeBytes]
  · simpa using toNat_count (required_opL_lt s)
  · simpa [capAud] using toNat_count (capAud_count s)
  · simp [withAudCarrier]
  · simp [withAudCarrier]

/-- Settles O16: the frame has 8L + 16 bits, and each sample of OBUF obeys `embeddedSample_laws`. -/
theorem audEmbedRule : Obligations.AudEmbedRule := by
  refine ⟨decode_encode .audEmbed, fun s _ => ⟨fun hf => ?_, fun hch hsw hrange => ?_, fun hch hsw hm hc hlt => ?_,
    fun hch hsw hm hc hfit => ?_⟩⟩
  · exact exec_of_format (audEmbedEffect_of_format (mt audioFormatOk_iff.1 hf))
  · exact exec_of_range (audEmbedEffect_of_range (audioFormatOk_iff.2 ⟨hch, hsw⟩) hrange)
  · exact ⟨_, exec_of_capacity (audEmbedEffect_of_lt (audioFormatOk_iff.2 ⟨hch, hsw⟩) hm hc hlt), rfl,
      toNat_count (required_opL_lt s), toNat_count (capAud_count s)⟩
  · have hframe : (frame (message s)).length = 8 * opL s + 16 := by simp
    obtain ⟨t, ht, hregs, hreq, havail, hbyte⟩ := exec_audEmbed_ok (audioFormatOk_iff.2 ⟨hch, hsw⟩) hm hc hfit
    refine ⟨t, ht, hregs, hreq, havail, fun i hi => ?_, fun a ha => ?_⟩
    · rw [audSample_congr hbyte, ← hframe]
      exact embeddedSample_laws (audSample_withAudCarrier s hi)
    · rw [hbyte, withAudCarrier_unchangedOutside s a ha]

/-- The registers can count any number of samples, so an AUD_EXTRACT that raises no error is the decode of R115. -/
theorem exec_audExtract_decoded (src : Src) {s : State} (hf : audioFormatOk s = true)
    (hfit : 2 * opN s ≤ s.cfg.nCbuf) :
    ∃ t, exec (.audExtract src) s = .next t ∧ Decoded s t (lsbAud s (opBase src) (opN s)) :=
  ⟨_, exec_of_ok (audExtractEffect_ok_iff.2 ⟨⟨hf, hfit⟩, rfl⟩), emitDecoded_spec (by simpa using opN_lt s)⟩

/-- Settles O17: the bits decoded are those of `lsbAud` (R175). -/
theorem audExtractRule : Obligations.AudExtractRule := by
  refine ⟨decode_encode (.audExtract .cbuf), decode_encode (.audExtract .obuf), fun src s _ =>
    ⟨fun hf => ?_, fun hch hsw hrange => ?_, fun hch hsw hfit => ?_⟩⟩
  · exact exec_of_format (audExtractEffect_of_format (mt audioFormatOk_iff.1 hf))
  · exact exec_of_range (audExtractEffect_of_range (audioFormatOk_iff.2 ⟨hch, hsw⟩) hrange)
  · obtain ⟨t, ht, hdecoded⟩ := exec_audExtract_decoded src (audioFormatOk_iff.2 ⟨hch, hsw⟩) hfit
    exact ⟨t, _, ht, hdecoded, lsbAud_length .., fun i hi => by simp [lsbAud]⟩

/-! ### The round trip (R177) -/

theorem opN_congr {s u : State} (h : u.audNsamp = s.audNsamp) : opN u = opN s :=
  congrArg BitVec.toNat h

theorem audioFormatOk_congr {s u : State} (h : u.audFmt = s.audFmt) : audioFormatOk u = audioFormatOk s := by
  rw [Bool.eq_iff_iff]
  simp only [audioFormatOk_iff, opCh, opSw, h]

/-- The LSBs of the carrier that AUD_EMBED stores begin with the frame (R175). -/
theorem frame_prefix_lsbAud {s u : State} (hfit : required (opL s) ≤ opN s)
    (hcarrier : ∀ k, k < 2 * opN s → u.byte (bufBase .obuf + k) = (withAudCarrier s).byte (bufBase .obuf + k)) :
    frame (message s) <+: lsbAud u (bufBase .obuf) (opN s) := by
  refine List.prefix_iff_getElem?.2 fun i hi => ?_
  have hin : i < opN s := Nat.lt_of_lt_of_le (by simpa [required] using hi) hfit
  obtain ⟨-, hbit, -⟩ := embeddedSample_laws (audSample_withAudCarrier s hin)
  rw [lsbAud_getElem? u _ hin, hcarrier (2 * i) (by omega), ← audSample_getLsbD_zero, hbit hi]

/-- Settles O29: the LSBs that AUD_EXTRACT reads begin with the frame that AUD_EMBED embedded. -/
theorem audioRoundTrip : Obligations.AudioRoundTrip := by
  intro s t u _ ht hok hcfg hnsamp hfmt hcarrier
  obtain ⟨v, hv, -⟩ := effect_of_exec_ok ht hok
  obtain ⟨⟨hf, hm, hc, hfit⟩, -⟩ := audEmbedEffect_ok_iff.1 hv
  obtain ⟨t', ht', hregs, -, -, hbyte⟩ := exec_audEmbed_ok hf hm hc hfit
  obtain rfl := Host.Outcome.next.inj (ht.symm.trans ht')
  rw [hregs] at hcfg hnsamp hfmt
  have hsamples : opN u = opN s := opN_congr hnsamp
  obtain ⟨x, hx⟩ : frame (message s) <+: lsbAud u (bufBase .obuf) (opN s) :=
    frame_prefix_lsbAud hfit fun k hk => (hcarrier k hk).trans (hbyte _)
  obtain ⟨r, hr, hdecoded⟩ :=
    exec_audExtract_decoded .obuf ((audioFormatOk_congr hfmt).trans hf) (by rwa [hsamples, hcfg])
  rw [hsamples, opBase, ← hx] at hdecoded
  exact ⟨r, hr, decoded_frame hdecoded⟩

/-! ### What AUD_EXTRACT reads (R175, R176) -/

theorem lsbAud_congr {s u : State} {base n : Nat}
    (h : ∀ i, i < n → u.byte (base + 2 * i) = s.byte (base + 2 * i)) : lsbAud u base n = lsbAud s base n :=
  List.map_congr_left fun i hi => by rw [h i (List.mem_range.1 hi)]

/-- The sizes, AUD_NSAMP, AUD_FMT and the low bytes decide whether AUD_EXTRACT raises an error, which one, and the bits
it decodes. -/
theorem audExtractEffect_congr {src : Src} {s u : State} (hcfg : u.cfg = s.cfg) (hnsamp : u.audNsamp = s.audNsamp)
    (hfmt : u.audFmt = s.audFmt)
    (hlow : ∀ i, i < opN s → u.byte (opBase src + 2 * i) = s.byte (opBase src + 2 * i)) :
    audExtractEffect src u =
      (audExtractEffect src s).map fun _ => emitDecoded (deframe (lsbAud s (opBase src) (opN s))) u := by
  have hch : opCh u = opCh s := congrArg (BitVec.extractLsb' 0 8) hfmt
  have hsw : opSw u = opSw s := congrArg (BitVec.extractLsb' 8 8) hfmt
  simp only [audExtractEffect, audioFormatOk_congr hfmt, hch, hsw, hcfg, opN_congr hnsamp, lsbAud_congr hlow]
  split_ifs <;> rfl

/-- Settles O33: by `audExtractEffect_congr` both states raise the same error, or decode the same bits. -/
theorem audExtractIgnoresHighBytes : Obligations.AudExtractIgnoresHighBytes := by
  intro src s u s' u' hs hu hcfg hnsamp hfmt hlow
  have heffect : effect (.audExtract src) u = (effect (.audExtract src) s).map _ :=
    audExtractEffect_congr hcfg hnsamp hfmt hlow
  obtain ⟨v, hv, rfl⟩ | ⟨e, he, rfl⟩ := exec_next_iff.1 hs
  · obtain ⟨-, rfl⟩ := audExtractEffect_ok_iff.1 hv
    rw [hv] at heffect
    obtain rfl := Host.Outcome.next.inj (hu.symm.trans (exec_of_ok heffect))
    have hcount : (lsbAud s (opBase src) (opN s)).length < 2 ^ 32 := by simpa using opN_lt s
    have hdecoded : Decoded s _ _ := emitDecoded_spec hcount
    have hdecoded' : Decoded u _ _ := emitDecoded_spec hcount
    refine ⟨rfl, rfl, fun _ _ => ⟨rfl, rfl, rfl, fun j hj => ?_⟩⟩
    rw [hdecoded.outLen] at hj
    rw [hdecoded.written j hj, hdecoded'.written j hj]
  · rw [he] at heffect
    obtain rfl := Host.Outcome.next.inj (hu.symm.trans (exec_next_iff.2 (.inr ⟨e, heffect, rfl⟩)))
    refine ⟨rfl, rfl, fun hok => ?_⟩
    obtain ⟨v, hv, -⟩ := effect_of_exec_ok hs hok
    cases he.symm.trans hv

end Sys2Proof.Proofs
end

section
/-! The exceptions (60_exceptions.md): the checks of R192 to R194 decide which outcome a completion ends with, the first
that applies (R196); an error is precise (R199); and the interrupt output (R200, R201). -/

namespace Sys2Proof.Proofs

open Sys2Proof.Machine Sys2Proof.Laws

/-! ### The checks of each command (R192 to R194) -/

/-- The format check fails: audio embed and extract take one channel of 16-bit samples only (R192). -/
def FormatError (i : Instr) (s : State) : Prop :=
  (i = .audEmbed ∨ i = .audExtract .cbuf ∨ i = .audExtract .obuf) ∧ ¬((opCh s).toNat = 1 ∧ (opSw s).toNat = 2)

/-- The RANGE check fails: an operand reaches past a buffer that the command reads or writes (R193). -/
def RangeError (i : Instr) (s : State) : Prop :=
  (i = .frameEncode ∧ (s.cfg.nMbuf < opL s ∨ s.cfg.nBbuf < opL s + 2))
  ∨ (i = .frameDecode ∧ 8 * s.cfg.nBbuf < opBits s)
  ∨ (i = .imgEmbed ∧ (s.cfg.nMbuf < opL s ∨ s.cfg.nCbuf < imgUnits s))
  ∨ ((i = .imgExtract .cbuf ∨ i = .imgExtract .obuf) ∧ s.cfg.nCbuf < imgUnits s)
  ∨ (i = .audEmbed ∧ (s.cfg.nMbuf < opL s ∨ s.cfg.nCbuf < 2 * opN s))
  ∨ ((i = .audExtract .cbuf ∨ i = .audExtract .obuf) ∧ s.cfg.nCbuf < 2 * opN s)

/-- The CAPACITY check fails: the frame has more bits than the carrier has units (R194). -/
def CapacityError (i : Instr) (s : State) : Prop :=
  ((i = .imgValidate ∨ i = .imgEmbed) ∧ imgUnits s < required (opL s))
  ∨ ((i = .audValidate ∨ i = .audEmbed) ∧ capAud (opN s) < required (opL s))

/-- The capacity that a validate or embed command compares with (R130). -/
def availableBits (i : Instr) (s : State) : Nat :=
  if i = .imgValidate ∨ i = .imgEmbed then imgUnits s else capAud (opN s)

theorem effect_of_formatError {i : Instr} {s : State} (h : FormatError i s) :
    effect i s = .error (.unsupportedFormat (opCh s) (opSw s)) := by
  obtain ⟨rfl | rfl | rfl, hf⟩ := h
  · exact audEmbedEffect_of_format (mt audioFormatOk_iff.1 hf)
  · exact audExtractEffect_of_format (mt audioFormatOk_iff.1 hf)
  · exact audExtractEffect_of_format (mt audioFormatOk_iff.1 hf)

/-- An audio embed or extract that passes the format check. -/
theorem audioFormatOk_of_not_formatError {i : Instr} {s : State} (hf : ¬FormatError i s)
    (hi : i = .audEmbed ∨ i = .audExtract .cbuf ∨ i = .audExtract .obuf) : audioFormatOk s = true :=
  audioFormatOk_iff.2 (not_not.1 fun h => hf ⟨hi, h⟩)

theorem effect_of_rangeError {i : Instr} {s : State} (hf : ¬FormatError i s) (h : RangeError i s) :
    effect i s = .error .range := by
  have hok := audioFormatOk_of_not_formatError hf
  obtain ⟨rfl, hr⟩ | ⟨rfl, hr⟩ | ⟨rfl, hr⟩ | ⟨rfl | rfl, hr⟩ | ⟨rfl, hr⟩ | ⟨rfl | rfl, hr⟩ := h
  · exact if_pos hr
  · exact if_pos hr
  · exact if_pos hr
  · exact if_pos hr
  · exact if_pos hr
  · exact audEmbedEffect_of_range (hok (by simp)) hr
  · exact audExtractEffect_of_range (hok (by simp)) hr
  · exact audExtractEffect_of_range (hok (by simp)) hr

theorem effect_of_capacityError {i : Instr} {s : State} (hf : ¬FormatError i s) (hr : ¬RangeError i s)
    (h : CapacityError i s) : effect i s = .error (.capacity (required (opL s)) (availableBits i s)) := by
  have hok := audioFormatOk_of_not_formatError hf
  obtain ⟨rfl | rfl, hlt⟩ | ⟨rfl | rfl, hlt⟩ := h
  · exact validateEffect_of_lt hlt
  · obtain ⟨hm, hc⟩ : opL s ≤ s.cfg.nMbuf ∧ imgUnits s ≤ s.cfg.nCbuf := by simpa [RangeError] using hr
    exact imgEmbedEffect_of_lt hm hc hlt
  · exact validateEffect_of_lt hlt
  · obtain ⟨hm, hc⟩ : opL s ≤ s.cfg.nMbuf ∧ 2 * opN s ≤ s.cfg.nCbuf := by simpa [RangeError] using hr
    exact audEmbedEffect_of_lt (hok (by simp)) hm hc hlt

/-- A command that passes its checks raises no error. -/
theorem effect_ok_of_checks {i : Instr} {s : State} (hf : ¬FormatError i s) (hr : ¬RangeError i s)
    (hc : ¬CapacityError i s) : ∃ u, effect i s = .ok u := by
  have hok := audioFormatOk_of_not_formatError hf
  cases i with
  | frameEncode => exact ⟨_, frameEncodeEffect_ok_iff.2 ⟨by simpa [RangeError] using hr, rfl⟩⟩
  | frameDecode => exact ⟨_, frameDecodeEffect_ok_iff.2 ⟨by simpa [RangeError] using hr, rfl⟩⟩
  | imgCapacity => exact ⟨_, rfl⟩
  | audCapacity => exact ⟨_, rfl⟩
  | imgValidate => exact ⟨_, validateEffect_ok_iff.2 ⟨by simpa [CapacityError] using hc, rfl⟩⟩
  | audValidate => exact ⟨_, validateEffect_ok_iff.2 ⟨by simpa [CapacityError] using hc, rfl⟩⟩
  | imgEmbed =>
    obtain ⟨hm, hfit⟩ : opL s ≤ s.cfg.nMbuf ∧ imgUnits s ≤ s.cfg.nCbuf := by simpa [RangeError] using hr
    exact ⟨_, imgEmbedEffect_ok_iff.2 ⟨⟨hm, hfit, by simpa [CapacityError] using hc⟩, rfl⟩⟩
  | imgExtract src =>
    have hfit : imgUnits s ≤ s.cfg.nCbuf := by cases src <;> simpa [RangeError] using hr
    exact ⟨_, imgExtractEffect_ok_iff.2 ⟨hfit, rfl⟩⟩
  | audEmbed =>
    obtain ⟨hm, hfit⟩ : opL s ≤ s.cfg.nMbuf ∧ 2 * opN s ≤ s.cfg.nCbuf := by simpa [RangeError] using hr
    exact ⟨_, audEmbedEffect_ok_iff.2 ⟨⟨hok (by simp), hm, hfit, by simpa [CapacityError] using hc⟩, rfl⟩⟩
  | audExtract src =>
    have hfit : 2 * opN s ≤ s.cfg.nCbuf := by cases src <;> simpa [RangeError] using hr
    exact ⟨_, audExtractEffect_ok_iff.2 ⟨⟨hok (by cases src <;> simp), hfit⟩, rfl⟩⟩

/-! ### The outcome of a completion (R196) -/

theorem availableBits_count (i : Instr) (s : State) : availableBits i s < 2 ^ 36 := by
  unfold availableBits
  split_ifs
  · exact imgUnits_count s
  · exact capAud_count s

/-- A command ends with the first of its checks that fails (R196). -/
theorem exec_first_outcome {i : Instr} {s t : State} (ht : exec i s = .next t) :
    (t.err = .unsupportedFormat ∧ FormatError i s)
    ∨ (t.err = .range ∧ ¬FormatError i s ∧ RangeError i s)
    ∨ (t.err = .capacity ∧ ¬FormatError i s ∧ ¬RangeError i s ∧ CapacityError i s
      ∧ t.reqBits.toNat = required (opL s) ∧ t.availBits.toNat = availableBits i s)
    ∨ (t.err = .ok ∧ ¬FormatError i s ∧ ¬RangeError i s ∧ ¬CapacityError i s) := by
  rw [exec_eq_complete] at ht
  by_cases hf : FormatError i s
  · rw [effect_of_formatError hf] at ht
    obtain rfl := Host.Outcome.next.inj ht
    exact .inl ⟨rfl, hf⟩
  by_cases hr : RangeError i s
  · rw [effect_of_rangeError hf hr] at ht
    obtain rfl := Host.Outcome.next.inj ht
    exact .inr (.inl ⟨rfl, hf, hr⟩)
  by_cases hc : CapacityError i s
  · rw [effect_of_capacityError hf hr hc] at ht
    obtain rfl := Host.Outcome.next.inj ht
    exact .inr (.inr (.inl ⟨rfl, hf, hr, hc, toNat_count (required_opL_lt s), toNat_count (availableBits_count i s)⟩))
  · obtain ⟨u, hu⟩ := effect_ok_of_checks hf hr hc
    rw [hu] at ht
    obtain rfl := Host.Outcome.next.inj ht
    exact .inr (.inr (.inr ⟨rfl, hf, hr, hc⟩))

/-- `exec_first_outcome` outcome by outcome: each is reported exactly when its check is the first that fails. A
command that runs is some `j`, so ILLEGAL_COMMAND is never among them (R191). -/
theorem exec_err_iff {i : Instr} {s t : State} (ht : exec i s = .next t) :
    (t.err = .illegalCommand ↔ ∀ j, ¬i = j)
    ∧ (t.err = .unsupportedFormat ↔ FormatError i s)
    ∧ (t.err = .range ↔ ¬FormatError i s ∧ RangeError i s)
    ∧ (t.err = .capacity ↔ ¬FormatError i s ∧ ¬RangeError i s ∧ CapacityError i s
      ∧ t.reqBits.toNat = required (opL s) ∧ t.availBits.toNat = availableBits i s)
    ∧ (t.err = .ok ↔ ¬(∀ j, ¬i = j) ∧ ¬FormatError i s ∧ ¬RangeError i s ∧ ¬CapacityError i s) := by
  obtain ⟨herr, hf⟩ | ⟨herr, hf, hr⟩ | ⟨herr, hf, hr, hc, hreq, havail⟩ | ⟨herr, hf, hr, hc⟩ := exec_first_outcome ht
  · simp [herr, hf]
  · simp [herr, hf, hr]
  · simp [herr, hf, hr, hc, hreq, havail]
  · simp [herr, hf, hr, hc]

/-- Settles O18: a word that decodes ends by `exec_err_iff`, and one that does not runs no command. -/
theorem outcomeIsTheFirstThatApplies : Obligations.OutcomeIsTheFirstThatApplies := by
  intro s t ht
  obtain ⟨i, hi, hexec⟩ | ⟨⟨e, he⟩, rfl⟩ := completionStep_next ht
  · simp only [hi, Except.ok.injEq]
    exact exec_err_iff hexec
  · simp [he, errorCode]

/-! ### Errors are precise (R199) -/

/-- A completion that ends in an error is `raiseError` on the state before the command (R195). -/
theorem completionStep_raises {s t : State} (ht : completionStep s = .next t) (herr : t.err ≠ .ok) :
    ∃ e, t = raiseError e s := by
  obtain ⟨i, -, hi⟩ | ⟨-, rfl⟩ := completionStep_next ht
  · obtain ⟨u, -, rfl⟩ | ⟨e, -, rfl⟩ := exec_next_iff.1 hi
    · exact absurd rfl herr
    · exact ⟨e, rfl⟩
  · exact ⟨_, rfl⟩

/-- Only a capacity error records anything beside STATUS and ERR_INFO (R195). -/
theorem raiseError_counts {e : CmdError} {s : State} (h : (raiseError e s).err ≠ .capacity) :
    (raiseError e s).reqBits = s.reqBits ∧ (raiseError e s).availBits = s.availBits := by
  cases e with
  | capacity req avail => exact absurd rfl h
  | _ => exact ⟨rfl, rfl⟩

/-- Settles O19: an error is taken on the state before the command, so nothing the command staged is left. -/
theorem errorsArePrecise : Obligations.ErrorsArePrecise := by
  intro s t ht herr
  obtain ⟨herrInfo, -⟩ := completionStep_errInfo ht
  obtain ⟨e, rfl⟩ := completionStep_raises ht herr
  exact ⟨by cases e <;> rfl, raiseError_counts, herrInfo⟩

/-! ### The interrupt output (R200, R201) -/

theorem ownWrites_ie (i : Instr) (s t : State) : (ownWrites i s t).ie = s.ie := by cases i <;> rfl

/-- No completion writes CTRL (R25). -/
theorem completionStep_ie {s t : State} (ht : completionStep s = .next t) : t.ie = s.ie := by
  obtain ⟨i, -, hi⟩ | ⟨-, rfl⟩ := completionStep_next ht
  · exact (congrArg State.ie (exec_writes_own hi)).trans (ownWrites_ie i s t)
  · rfl

/-- Settles O44: a completion sets DONE and leaves IE; each of the clears resets one of the two. -/
theorem irqFollowsDoneAndEnable : Obligations.IrqFollowsDoneAndEnable := by
  refine ⟨fun _ => rfl, fun s t ht => ?_, fun s v hv => ?_, fun _ _ => rfl, fun _ _ => rfl, fun _ => rfl⟩
  · obtain ⟨-, hdone, -⟩ := completionStep_flags ht
    have hie := completionStep_ie ht
    exact ⟨hdone, hie, by rw [irq, hdone, hie, Bool.true_and]⟩
  · simp [irq, hv]

end Sys2Proof.Proofs
end

section
/-! Reset and hazards (70_reset_and_hazards.md): what the reset state holds (R221), reset as one step (R220 to R223),
the commands straight after it (R226), and the completion of a running command (R236). -/

namespace Sys2Proof.Proofs

open Sys2Proof.Machine Sys2Proof.Laws

/-! ### The reset state (R221, R222) -/

theorem statusWord_resetOf (c : Config) : statusWord (State.resetOf c) = 0 :=
  BitVec.eq_of_toNat_eq (statusWord_toNat _)

/-- Every register but ID is 0 after reset. -/
theorem readReg_resetOf (c : Config) (r : Reg) :
    readReg r (State.resetOf c) = if r = .id then 0x4C534231#32 else 0 := by
  cases r with
  | status => exact statusWord_resetOf c
  | reqBitsHi | availBitsHi => exact BitVec.extractLsb'_zero
  | _ => rfl

/-- No byte has been written since reset, so every one is a free value. -/
theorem byte_resetOf (c : Config) (a : Nat) : (State.resetOf c).byte a = Config.freeByte 0 a := rfl

/-- Settles O45: `readReg_resetOf` and `byte_resetOf`; the other clauses are fields of `State.resetOf`. -/
theorem resetRegisterValues : Obligations.ResetRegisterValues := fun c =>
  ⟨rfl, rfl, readReg_resetOf c, fun _ => rfl, rfl, byte_resetOf c⟩

/-- No clause of the invariant speaks of `epoch`, in which the reset state differs from a state that is reset. -/
theorem resetOf_inv (c : Config) : (State.resetOf c).Inv :=
  { resetEngine_inv (State.resetOf c) with }

/-- Settles O54: K1's sizes are among the sizes of `resetOf_inv`. -/
theorem resetMeetsInvariant : Obligations.ResetMeetsInvariant :=
  ⟨resetOf_inv Config.k1, resetOf_inv⟩

/-! ### Reset as a step (R220, R222, R223) -/

/-- A state that is reset reads as the reset state of its sizes. -/
theorem readReg_resetEngine (r : Reg) (s : State) : readReg r (resetEngine s) = readReg r (State.resetOf s.cfg) := by
  cases r <;> rfl

/-- Reset draws every byte anew. -/
theorem byte_resetEngine (s : State) (a : Nat) : (resetEngine s).byte a = Config.freeByte (s.epoch + 1) a := rfl

/-- Settles O46: the step is `resetEngine`, whatever PHASE is. -/
theorem resetInEitherPhase : Obligations.ResetInEitherPhase := fun s _ hw hturns =>
  ⟨_, step_reset hw hturns, rfl, rfl, rfl, rfl,
    fun r => (readReg_resetEngine r _).trans (readReg_resetOf s.cfg r), byte_resetEngine _, rfl, rfl⟩

/-! ### Commands straight after reset (R226) -/

@[simp] theorem opL_resetOf (c : Config) : opL (State.resetOf c) = 0 := rfl

@[simp] theorem opBits_resetOf (c : Config) : opBits (State.resetOf c) = 0 := rfl

@[simp] theorem imgUnits_resetOf (c : Config) : imgUnits (State.resetOf c) = 0 := by
  simp [imgUnits, capImg, opW, State.resetOf]

/-- AUD_FMT is 0 after reset: no channel. -/
theorem not_audioFormatOk_resetOf (c : Config) : ¬audioFormatOk (State.resetOf c) = true := Bool.false_ne_true

/-- The message is empty after reset, so its frame is the terminator alone. -/
theorem exec_frameEncode_resetOf {c : Config} (hw : c.wf = true) :
    ∃ t, exec .frameEncode (State.resetOf c) = .next t ∧ t.err = .ok ∧ t.byte (bufBase .bbuf) = 0xFF#8
      ∧ t.byte (bufBase .bbuf + 1) = 0xFE#8 ∧ t.bitLen = 16 := by
  obtain ⟨-, -, ⟨hbbuf, -⟩, -⟩ := cfg_wf_iff.1 hw
  obtain ⟨-, hrule⟩ := frameEncodeRule
  obtain ⟨-, hok⟩ := hrule (State.resetOf c) hw
  obtain ⟨t, ht, hregs, hbits, -, hff, hfe, -⟩ := hok (Nat.zero_le _) hbbuf
  exact ⟨t, ht, congrArg State.err hregs, hff, hfe, BitVec.eq_of_toNat_eq hbits⟩

/-- A decode of no bits at all gives no bytes (R115). -/
theorem ok_and_outLen_of_decoded_nil {s t : State} (h : Decoded s t []) : t.err = .ok ∧ t.outLen = 0 :=
  ⟨congrArg State.err h.registers, BitVec.eq_of_toNat_eq h.outLen⟩

theorem exec_frameDecode_resetOf (c : Config) :
    ∃ t, exec .frameDecode (State.resetOf c) = .next t ∧ t.err = .ok ∧ t.outLen = 0 :=
  ⟨_, exec_of_ok (frameDecodeEffect_ok_iff.2 ⟨by simp, rfl⟩),
    ok_and_outLen_of_decoded_nil (emitDecoded_spec (bits := []) (by simp))⟩

theorem exec_imgExtract_resetOf {c : Config} (hw : c.wf = true) (src : Src) :
    ∃ t, exec (.imgExtract src) (State.resetOf c) = .next t ∧ t.err = .ok ∧ t.outLen = 0 := by
  obtain ⟨t, ht, hdecoded⟩ := exec_imgExtract_decoded src (s := State.resetOf c) hw (by simp)
  rw [imgUnits_resetOf] at hdecoded
  exact ⟨t, ht, ok_and_outLen_of_decoded_nil hdecoded⟩

/-- An image carrier of no units has no room for the terminator. -/
theorem exec_imgEmbed_resetOf (c : Config) :
    ∃ t, exec .imgEmbed (State.resetOf c) = .next t ∧ t.err = .capacity :=
  ⟨_, exec_of_capacity (imgEmbedEffect_of_lt (by simp) (by simp) (by simp [required])), rfl⟩

/-- A command that fails the format check ends with UNSUPPORTED_FORMAT (R192). -/
theorem exec_err_of_format {i : Instr} {s : State} (h : effect i s = .error (.unsupportedFormat (opCh s) (opSw s))) :
    ∃ t, exec i s = .next t ∧ t.err = .unsupportedFormat := by
  obtain ⟨t, ht, hregs, -⟩ := exec_of_format h
  exact ⟨t, ht, congrArg State.err hregs⟩

/-- Settles O47: every operand is 0 after reset, so each command's outcome follows from its rule. -/
theorem commandsStraightAfterReset : Obligations.CommandsStraightAfterReset := fun c hw =>
  ⟨exec_frameEncode_resetOf hw, exec_imgEmbed_resetOf c,
    exec_err_of_format (audEmbedEffect_of_format (not_audioFormatOk_resetOf c)),
    fun _ => exec_err_of_format (audExtractEffect_of_format (not_audioFormatOk_resetOf c)),
    exec_frameDecode_resetOf c, exec_imgExtract_resetOf hw⟩

/-! ### A running command completes (R236) -/

/-- Settles O51: with no turn listed the step is the engine's turn, which completes while BUSY. -/
theorem busyEndsWhenTurnsRunOut : Obligations.BusyEndsWhenTurnsRunOut := by
  intro s hw hbusy hturns
  obtain ⟨-, hcompletes⟩ := engineCompletesExactlyWhenBusy s
  obtain ⟨t, ht, hphase, hdone, -⟩ := hcompletes hbusy
  exact ⟨t, (step_empty hw hturns).trans ht, hphase, hdone⟩

end Sys2Proof.Proofs
end
